-- ==== Sys2Proof/Word.lean ====
section
/-! DEFINITION. The data units of 00_scope.md rule R5 and the register numbers of 10_state.md rule R20. -/

namespace Sys2Proof

/-- A byte is 8 bits (00_scope.md rule R5). -/
abbrev Byte := BitVec 8

/-- A halfword is 16 bits, the unit instructions are built from (00_scope.md rule R5). -/
abbrev Half := BitVec 16

/-- A word is 32 bits: the width of a general register, of an address and of the `pc` (00_scope.md rules R4, R5). -/
abbrev Word := BitVec 32

/-- A register number, 0 to 31 (10_state.md rule R20). -/
abbrev Reg := Fin 32

/-- The number of byte addresses (20_memory.md rule R50). -/
abbrev addressCount : Nat := 4294967296

end Sys2Proof
end

