-- ==== Sys2Proof/Config.lean ====
section
/-! DEFINITION. The parameters 00_scope.md rule R4 fixes for every launch (70_reset_and_hazards.md rule R221:
"the fixed parameters `R0_ZERO = true`, `ENDIAN = little`, `MISALIGNED_WORD = fault`"). The parameters a launch
chooses (`ADMIT`, `CODE`, `ENTRY_PC`) are data of State and of `Sys2Proof.Machine.Launch`. The spec leaves no
result of an instruction open, so there is no free value here. -/

namespace Sys2Proof

/-- The byte orders the parameter `ENDIAN` names (00_scope.md rule R4). -/
inductive Endian where
  | little
  | big
deriving DecidableEq, Repr

/-- What the parameter `MISALIGNED_WORD` may say (20_memory.md rule R54): `fault` is the only value the spec defines. -/
inductive MisalignedWord where
  | fault
deriving DecidableEq, Repr

/-- `R0_ZERO`: r0 reads as zero and ignores writes (10_state.md rule R22). PRESUMED, log 7. -/
def Config.r0Zero : Bool := true

/-- `ENDIAN`: little (20_memory.md rule R52). PRESUMED, log 8. -/
def Config.endian : Endian := .little

/-- `MISALIGNED_WORD`: fault (20_memory.md rule R54). DESIGN CHOICE, log 9. -/
def Config.misalignedWord : MisalignedWord := .fault

end Sys2Proof
end

