-- ==== Sys2Proof/Syntax.lean ====
section
/-! DEFINITION. The instructions: one constructor per row of spec/opcode_table.json, operands in the order of the
source's [Instruction format] lines (30_encoding.md rule R103). A register operand is its number, an immediate is
its field, a displacement is the whole `disp9`, `disp16`, `disp23` or `disp32` with its bit 0, which every encoding
leaves out and fixes at 0 (30_encoding.md rules R93 to R96): an odd one is ill-formed (WellFormed.lean). -/

namespace Sys2Proof

/-- The sixteen conditions of Table 5-5, in the order of their codes `0000` to `1111` (41_branch.md rule R150). -/
inductive Cond where
  | v | l | e | nh | n | always | lt | le | nv | nl | ne | h | p | sa | ge | gt
deriving DecidableEq, Repr

/-- The thirty-one rows of spec/opcode_table.json: fifteen encodings and Bcond once for each condition code. -/
inductive Instr where
  /-- `ADD reg1, reg2` (40_arithmetic.md rule R123). -/
  | addReg (reg1 reg2 : Reg)
  /-- `ADD imm5, reg2` (rule R124). -/
  | addImm5 (imm5 : BitVec 5) (reg2 : Reg)
  /-- `ADDI imm16, reg1, reg2` (rule R125). -/
  | addi (imm16 : BitVec 16) (reg1 reg2 : Reg)
  /-- `SUB reg1, reg2` (rule R126). -/
  | sub (reg1 reg2 : Reg)
  /-- `MOV reg1, reg2` (rule R127). -/
  | movReg (reg1 reg2 : Reg)
  /-- `MOV imm5, reg2` (rule R128). -/
  | movImm5 (imm5 : BitVec 5) (reg2 : Reg)
  /-- `MOV imm32, reg1` (rule R129). -/
  | movImm32 (imm32 : BitVec 32) (reg1 : Reg)
  /-- `JMP [reg1]` (41_branch.md rule R151). -/
  | jmpReg (reg1 : Reg)
  /-- `JMP disp32 [reg1]` (rule R152). -/
  | jmpDisp32 (disp32 : BitVec 32) (reg1 : Reg)
  /-- `CMP reg1, reg2` (40_arithmetic.md rule R130). -/
  | cmpReg (reg1 reg2 : Reg)
  /-- `CMP imm5, reg2` (rule R131). -/
  | cmpImm5 (imm5 : BitVec 5) (reg2 : Reg)
  /-- `LD.W disp16 [reg1], reg2` (42_load.md rule R170). -/
  | ldwDisp16 (disp16 : BitVec 16) (reg1 reg2 : Reg)
  /-- `LD.W disp23 [reg1], reg3` (rule R171). -/
  | ldwDisp23 (disp23 : BitVec 23) (reg1 reg3 : Reg)
  /-- `ST.W reg2, disp16 [reg1]` (43_store.md rule R180). -/
  | stwDisp16 (reg2 : Reg) (disp16 : BitVec 16) (reg1 : Reg)
  /-- `ST.W reg3, disp23 [reg1]` (rule R181). -/
  | stwDisp23 (reg3 : Reg) (disp23 : BitVec 23) (reg1 : Reg)
  -- Bcond disp9 (41_branch.md rules R150, R153), one row for each condition code
  | bv (disp9 : BitVec 9)
  | bl (disp9 : BitVec 9)
  | be (disp9 : BitVec 9)
  | bnh (disp9 : BitVec 9)
  | bn (disp9 : BitVec 9)
  | br (disp9 : BitVec 9)
  | blt (disp9 : BitVec 9)
  | ble (disp9 : BitVec 9)
  | bnv (disp9 : BitVec 9)
  | bnl (disp9 : BitVec 9)
  | bne (disp9 : BitVec 9)
  | bh (disp9 : BitVec 9)
  | bp (disp9 : BitVec 9)
  | bsa (disp9 : BitVec 9)
  | bge (disp9 : BitVec 9)
  | bgt (disp9 : BitVec 9)
deriving DecidableEq, Repr

end Sys2Proof
end

