-- ==== Sys2Proof/WellFormed.lean ====
section
/-! DEFINITION. Which terms of `Instr` have an encoding (30_encoding.md rule R105). The widths of the operands are
in the types; what is left to check is that reg2 of MOV (1) and MOV (2) is not r0 (rule R100) and that a
displacement is even (rules R93 to R96). -/

namespace Sys2Proof

/-- A displacement has bit 0 equal to 0 (30_encoding.md rules R93 to R96). -/
def evenDisp {w : Nat} (d : BitVec w) : Bool := !d.getLsbD 0

/-- The instruction has an encoding (30_encoding.md rules R100, R105). -/
def Instr.wellFormed : Instr → Bool
  | .addReg _ _ => true
  | .addImm5 _ _ => true
  | .addi _ _ _ => true
  | .sub _ _ => true
  | .movReg _ reg2 => reg2 != 0
  | .movImm5 _ reg2 => reg2 != 0
  | .movImm32 _ _ => true
  | .jmpReg _ => true
  | .jmpDisp32 disp32 _ => evenDisp disp32
  | .cmpReg _ _ => true
  | .cmpImm5 _ _ => true
  | .ldwDisp16 disp16 _ _ => evenDisp disp16
  | .ldwDisp23 disp23 _ _ => evenDisp disp23
  | .stwDisp16 _ disp16 _ => evenDisp disp16
  | .stwDisp23 _ disp23 _ => evenDisp disp23
  | .bv disp9 => evenDisp disp9
  | .bl disp9 => evenDisp disp9
  | .be disp9 => evenDisp disp9
  | .bnh disp9 => evenDisp disp9
  | .bn disp9 => evenDisp disp9
  | .br disp9 => evenDisp disp9
  | .blt disp9 => evenDisp disp9
  | .ble disp9 => evenDisp disp9
  | .bnv disp9 => evenDisp disp9
  | .bnl disp9 => evenDisp disp9
  | .bne disp9 => evenDisp disp9
  | .bh disp9 => evenDisp disp9
  | .bp disp9 => evenDisp disp9
  | .bsa disp9 => evenDisp disp9
  | .bge disp9 => evenDisp disp9
  | .bgt disp9 => evenDisp disp9

end Sys2Proof
end

