-- ==== Sys2Proof/Decode.lean ====
section
/-! DEFINITION. Decoding (30_encoding.md rules R98 to R101): total on any halfwords and on any bytes, rejecting by
name; then the encoder (sections 2 and 3 of 30_encoding.md) and the opcode map of rule R97 as a second view. -/

namespace Sys2Proof

/-! ### Byte order of a halfword, register fields -/

/-- The halfword whose bytes stand at an even address and at the next one (20_memory.md rules R52, R53). -/
def halfOfBytes (lower upper : Byte) : Half :=
  match Config.endian with
  | .little => upper ++ lower
  | .big => lower ++ upper

/-- The byte of a halfword at its lower address (20_memory.md rule R53). -/
def lowerByte (h : Half) : Byte :=
  match Config.endian with
  | .little => h.extractLsb' 0 8
  | .big => h.extractLsb' 8 8

/-- The byte of a halfword at its upper address (20_memory.md rule R53). -/
def upperByte (h : Half) : Byte :=
  match Config.endian with
  | .little => h.extractLsb' 8 8
  | .big => h.extractLsb' 0 8

/-- The register a 5-bit field names (30_encoding.md rule R82). -/
def regOfField (f : BitVec 5) : Reg := f.toFin

/-- The 5-bit field that names a register (30_encoding.md rule R82). -/
def fieldOfReg (r : Reg) : BitVec 5 := BitVec.ofFin r

/-! ### The fields of an instruction (rules R82 to R96) -/

/-- `ins[10:5]`, the six-bit opcode (rule R83). -/
def fieldOp6 (hw0 : Half) : BitVec 6 := hw0.extractLsb' 5 6

/-- `ins[10:7]`, the four-bit opcode of Format III (rule R85). -/
def fieldOp4 (hw0 : Half) : BitVec 4 := hw0.extractLsb' 7 4

/-- `ins[15:11]`, the field `rrrrr` (rule R82). -/
def fieldReg2 (hw0 : Half) : BitVec 5 := hw0.extractLsb' 11 5

/-- `ins[4:0]`, the field `RRRRR` (rule R82). -/
def fieldReg1 (hw0 : Half) : BitVec 5 := hw0.extractLsb' 0 5

/-- `ins[31:27]`, the field `wwwww` (rule R82). -/
def fieldReg3 (hw1 : Half) : BitVec 5 := hw1.extractLsb' 11 5

/-- `imm5 = ins[4:0]` (rule R90). -/
def fieldImm5 (hw0 : Half) : BitVec 5 := hw0.extractLsb' 0 5

/-- `cond = ins[3:0]` (rule R85). -/
def fieldCond (hw0 : Half) : BitVec 4 := hw0.extractLsb' 0 4

/-- `imm32`, from `ins[47:32]` and `ins[31:16]` (rule R92). -/
def fieldImm32 (hw1 hw2 : Half) : BitVec 32 := hw2 ++ hw1

/-- `disp9`, from `ins[15:11]`, `ins[6:4]` and a 0 (rule R93). -/
def fieldDisp9 (hw0 : Half) : BitVec 9 := hw0.extractLsb' 11 5 ++ hw0.extractLsb' 4 3 ++ 0#1

/-- `disp16`, from `ins[31:17]` and a 0 (rule R94). -/
def fieldDisp16 (hw1 : Half) : BitVec 16 := hw1.extractLsb' 1 15 ++ 0#1

/-- `disp23`, from `ins[47:32]`, `ins[26:21]` and a 0 (rule R95). -/
def fieldDisp23 (hw1 hw2 : Half) : BitVec 23 := hw2 ++ hw1.extractLsb' 5 6 ++ 0#1

/-- `disp32`, from `ins[47:32]`, `ins[31:17]` and a 0 (rule R96). -/
def fieldDisp32 (hw1 hw2 : Half) : BitVec 32 := hw2 ++ hw1.extractLsb' 1 15 ++ 0#1

/-- `ins[20:16]`, the fixed `0` and the sub-opcode of Format XIV (rule R89). -/
def fieldSub5 (hw1 : Half) : BitVec 5 := hw1.extractLsb' 0 5

/-- The condition of a code (41_branch.md rule R150). -/
def Cond.ofCode (c : BitVec 4) : Cond :=
  if c = 0b0000#4 then .v
  else if c = 0b0001#4 then .l
  else if c = 0b0010#4 then .e
  else if c = 0b0011#4 then .nh
  else if c = 0b0100#4 then .n
  else if c = 0b0101#4 then .always
  else if c = 0b0110#4 then .lt
  else if c = 0b0111#4 then .le
  else if c = 0b1000#4 then .nv
  else if c = 0b1001#4 then .nl
  else if c = 0b1010#4 then .ne
  else if c = 0b1011#4 then .h
  else if c = 0b1100#4 then .p
  else if c = 0b1101#4 then .sa
  else if c = 0b1110#4 then .ge
  else .gt

/-- The Bcond row of a condition. -/
def Instr.branch (c : Cond) (disp9 : BitVec 9) : Instr :=
  match c with
  | .v => .bv disp9
  | .l => .bl disp9
  | .e => .be disp9
  | .nh => .bnh disp9
  | .n => .bn disp9
  | .always => .br disp9
  | .lt => .blt disp9
  | .le => .ble disp9
  | .nv => .bnv disp9
  | .nl => .bnl disp9
  | .ne => .bne disp9
  | .h => .bh disp9
  | .p => .bp disp9
  | .sa => .bsa disp9
  | .ge => .bge disp9
  | .gt => .bgt disp9

/-! ### The decoder (rule R98) -/

/-- What the first halfword alone decides: a row of rule R97, or, for Format XIV, the two rows that share it. -/
inductive Head where
  | addReg | addImm5 | addi | sub | movReg | movImm5 | movImm32 | jmpReg | jmpDisp32
  | cmpReg | cmpImm5 | bcond | ldwDisp16 | stwDisp16 | formatXIV
deriving DecidableEq, Repr

/-- `Decode(hw0)` of rule R98: none where the first halfword is a reserved encoding (rules R99, R100). -/
def headOf (hw0 : Half) : Option Head :=
  let op := fieldOp6 hw0
  let r2 := fieldReg2 hw0
  if fieldOp4 hw0 = 0b1011#4 then some .bcond
  else if op = 0b000000#6 then (if r2 = 0#5 then none else some .movReg)
  else if op = 0b000011#6 then (if r2 = 0#5 then some .jmpReg else none)
  else if op = 0b001101#6 then some .sub
  else if op = 0b001110#6 then some .addReg
  else if op = 0b001111#6 then some .cmpReg
  else if op = 0b010000#6 then (if r2 = 0#5 then none else some .movImm5)
  else if op = 0b010010#6 then some .addImm5
  else if op = 0b010011#6 then some .cmpImm5
  else if op = 0b110000#6 then some .addi
  else if op = 0b110001#6 then (if r2 = 0#5 then some .movImm32 else none)
  else if op = 0b110111#6 then (if r2 = 0#5 then some .jmpDisp32 else none)
  else if op = 0b111001#6 then some .ldwDisp16
  else if op = 0b111011#6 then some .stwDisp16
  else if op = 0b111100#6 then (if r2 = 0#5 then some .formatXIV else none)
  else none

/-- The length in halfwords (rules R80, R98). -/
def Head.halfwords : Head → Nat
  | .addReg => 1
  | .addImm5 => 1
  | .addi => 2
  | .sub => 1
  | .movReg => 1
  | .movImm5 => 1
  | .movImm32 => 3
  | .jmpReg => 1
  | .jmpDisp32 => 3
  | .cmpReg => 1
  | .cmpImm5 => 1
  | .bcond => 1
  | .ldwDisp16 => 2
  | .stwDisp16 => 2
  | .formatXIV => 3

/-- The "needs" test on the second halfword (rules R98, R101). -/
def Head.secondOk (h : Head) (hw1 : Half) : Bool :=
  match h with
  | .addReg => true
  | .addImm5 => true
  | .addi => true
  | .sub => true
  | .movReg => true
  | .movImm5 => true
  | .movImm32 => true
  | .jmpReg => true
  | .jmpDisp32 => !hw1.getLsbD 0
  | .cmpReg => true
  | .cmpImm5 => true
  | .bcond => true
  | .ldwDisp16 => hw1.getLsbD 0
  | .stwDisp16 => hw1.getLsbD 0
  | .formatXIV => fieldSub5 hw1 == 0b01001#5 || fieldSub5 hw1 == 0b01111#5

/-- The instruction, its operands taken from the fields of the halfwords (rules R82 to R96). -/
def Head.build (h : Head) (hw0 hw1 hw2 : Half) : Instr :=
  let reg1 := regOfField (fieldReg1 hw0)
  let reg2 := regOfField (fieldReg2 hw0)
  match h with
  | .addReg => .addReg reg1 reg2
  | .addImm5 => .addImm5 (fieldImm5 hw0) reg2
  | .addi => .addi hw1 reg1 reg2
  | .sub => .sub reg1 reg2
  | .movReg => .movReg reg1 reg2
  | .movImm5 => .movImm5 (fieldImm5 hw0) reg2
  | .movImm32 => .movImm32 (fieldImm32 hw1 hw2) reg1
  | .jmpReg => .jmpReg reg1
  | .jmpDisp32 => .jmpDisp32 (fieldDisp32 hw1 hw2) reg1
  | .cmpReg => .cmpReg reg1 reg2
  | .cmpImm5 => .cmpImm5 (fieldImm5 hw0) reg2
  | .bcond => .branch (.ofCode (fieldCond hw0)) (fieldDisp9 hw0)
  | .ldwDisp16 => .ldwDisp16 (fieldDisp16 hw1) reg1 reg2
  | .stwDisp16 => .stwDisp16 reg2 (fieldDisp16 hw1) reg1
  | .formatXIV =>
    if fieldSub5 hw1 = 0b01001#5 then .ldwDisp23 (fieldDisp23 hw1 hw2) reg1 (regOfField (fieldReg3 hw1))
    else .stwDisp23 (regOfField (fieldReg3 hw1)) (fieldDisp23 hw1 hw2) reg1

/-- What decoding a list of halfwords answers. -/
inductive Decoded where
  /-- The instruction and the halfwords after it. -/
  | ok (i : Instr) (rest : List Half)
  /-- A reserved encoding with this first halfword (rules R99 to R101). -/
  | reserved (hw0 : Half)
  /-- Halfword `k` of the instruction is needed and the list ends before it. -/
  | missing (k : Nat)
deriving DecidableEq, Repr

/-- Decoding in the order of rule R98: the first halfword; then, where the length needs it, the second halfword and the
test of its fixed bits; then the third. -/
def decode : List Half → Decoded
  | [] => .missing 0
  | hw0 :: rest =>
    match headOf hw0 with
    | none => .reserved hw0
    | some h =>
      if h.halfwords = 1 then .ok (h.build hw0 0#16 0#16) rest
      else
        match rest with
        | [] => .missing 1
        | hw1 :: rest1 =>
          if h.secondOk hw1 = false then .reserved hw0
          else if h.halfwords = 2 then .ok (h.build hw0 hw1 0#16) rest1
          else
            match rest1 with
            | [] => .missing 2
            | hw2 :: rest2 => .ok (h.build hw0 hw1 hw2) rest2

/-- The halfwords of a byte image at ascending addresses (20_memory.md rule R53); an odd last byte is left out. -/
def halvesOfBytes : List Byte → List Half
  | lower :: upper :: rest => halfOfBytes lower upper :: halvesOfBytes rest
  | [_] => []
  | [] => []

/-- The byte image of halfwords at ascending addresses (20_memory.md rule R53). -/
def bytesOfHalves : List Half → List Byte
  | h :: rest => lowerByte h :: upperByte h :: bytesOfHalves rest
  | [] => []

/-- Decoding a byte image. -/
def decodeBytes (bs : List Byte) : Decoded := decode (halvesOfBytes bs)

/-- The three halfwords of an instruction whose bits are `w`, the bits from `nbits` on being 0, numbered as rule R81
numbers them. -/
def tableHalves (nbits w : Nat) : List Half :=
  let ins : BitVec 48 := BitVec.ofNat 48 (w % 2 ^ nbits)
  [ins.extractLsb' 0 16, ins.extractLsb' 16 16, ins.extractLsb' 32 16]

/-- The six bytes of that instruction as memory holds them, the first at the lowest address. -/
def tableBytes (nbits w : Nat) : List Byte := bytesOfHalves (tableHalves nbits w)

/-- The instruction the decoder reads from an instruction of the opcode table whose bits are `w`. -/
def decodeTableWord (nbits w : Nat) : Option Instr :=
  match decodeBytes (tableBytes nbits w) with
  | .ok i _ => some i
  | .reserved _ => none
  | .missing _ => none

/-! ### The encoder (the recovered patterns of section 2, the formats of section 3) -/

/-- A Bcond halfword `ddddd1011dddcccc` (rule R85). -/
def encodeBranch (cccc : BitVec 4) (disp9 : BitVec 9) : List Half :=
  [disp9.extractLsb' 4 5 ++ 0b1011#4 ++ disp9.extractLsb' 1 3 ++ cccc]

/-- The halfwords of an instruction in fetch order (rule R97). -/
def encode : Instr → List Half
  | .addReg reg1 reg2 => [fieldOfReg reg2 ++ 0b001110#6 ++ fieldOfReg reg1]
  | .addImm5 imm5 reg2 => [fieldOfReg reg2 ++ 0b010010#6 ++ imm5]
  | .addi imm16 reg1 reg2 => [fieldOfReg reg2 ++ 0b110000#6 ++ fieldOfReg reg1, imm16]
  | .sub reg1 reg2 => [fieldOfReg reg2 ++ 0b001101#6 ++ fieldOfReg reg1]
  | .movReg reg1 reg2 => [fieldOfReg reg2 ++ 0b000000#6 ++ fieldOfReg reg1]
  | .movImm5 imm5 reg2 => [fieldOfReg reg2 ++ 0b010000#6 ++ imm5]
  | .movImm32 imm32 reg1 =>
    [0b00000110001#11 ++ fieldOfReg reg1, imm32.extractLsb' 0 16, imm32.extractLsb' 16 16]
  | .jmpReg reg1 => [0b00000000011#11 ++ fieldOfReg reg1]
  | .jmpDisp32 disp32 reg1 =>
    [0b00000110111#11 ++ fieldOfReg reg1, disp32.extractLsb' 1 15 ++ 0#1, disp32.extractLsb' 16 16]
  | .cmpReg reg1 reg2 => [fieldOfReg reg2 ++ 0b001111#6 ++ fieldOfReg reg1]
  | .cmpImm5 imm5 reg2 => [fieldOfReg reg2 ++ 0b010011#6 ++ imm5]
  | .ldwDisp16 disp16 reg1 reg2 =>
    [fieldOfReg reg2 ++ 0b111001#6 ++ fieldOfReg reg1, disp16.extractLsb' 1 15 ++ 1#1]
  | .ldwDisp23 disp23 reg1 reg3 =>
    [0b00000111100#11 ++ fieldOfReg reg1, fieldOfReg reg3 ++ disp23.extractLsb' 1 6 ++ 0b01001#5,
      disp23.extractLsb' 7 16]
  | .stwDisp16 reg2 disp16 reg1 =>
    [fieldOfReg reg2 ++ 0b111011#6 ++ fieldOfReg reg1, disp16.extractLsb' 1 15 ++ 1#1]
  | .stwDisp23 reg3 disp23 reg1 =>
    [0b00000111100#11 ++ fieldOfReg reg1, fieldOfReg reg3 ++ disp23.extractLsb' 1 6 ++ 0b01111#5,
      disp23.extractLsb' 7 16]
  | .bv disp9 => encodeBranch 0b0000#4 disp9
  | .bl disp9 => encodeBranch 0b0001#4 disp9
  | .be disp9 => encodeBranch 0b0010#4 disp9
  | .bnh disp9 => encodeBranch 0b0011#4 disp9
  | .bn disp9 => encodeBranch 0b0100#4 disp9
  | .br disp9 => encodeBranch 0b0101#4 disp9
  | .blt disp9 => encodeBranch 0b0110#4 disp9
  | .ble disp9 => encodeBranch 0b0111#4 disp9
  | .bnv disp9 => encodeBranch 0b1000#4 disp9
  | .bnl disp9 => encodeBranch 0b1001#4 disp9
  | .bne disp9 => encodeBranch 0b1010#4 disp9
  | .bh disp9 => encodeBranch 0b1011#4 disp9
  | .bp disp9 => encodeBranch 0b1100#4 disp9
  | .bsa disp9 => encodeBranch 0b1101#4 disp9
  | .bge disp9 => encodeBranch 0b1110#4 disp9
  | .bgt disp9 => encodeBranch 0b1111#4 disp9

/-- The bytes of an instruction at ascending addresses (20_memory.md rule R53). -/
def encodeBytes (i : Instr) : List Byte := bytesOfHalves (encode i)

/-- The length of an instruction in bytes: 2, 4 or 6 (rule R80). -/
def Instr.lengthBytes : Instr → Nat
  | .addReg _ _ => 2
  | .addImm5 _ _ => 2
  | .addi _ _ _ => 4
  | .sub _ _ => 2
  | .movReg _ _ => 2
  | .movImm5 _ _ => 2
  | .movImm32 _ _ => 6
  | .jmpReg _ => 2
  | .jmpDisp32 _ _ => 6
  | .cmpReg _ _ => 2
  | .cmpImm5 _ _ => 2
  | .ldwDisp16 _ _ _ => 4
  | .ldwDisp23 _ _ _ => 6
  | .stwDisp16 _ _ _ => 4
  | .stwDisp23 _ _ _ => 6
  | .bv _ => 2
  | .bl _ => 2
  | .be _ => 2
  | .bnh _ => 2
  | .bn _ => 2
  | .br _ => 2
  | .blt _ => 2
  | .ble _ => 2
  | .bnv _ => 2
  | .bnl _ => 2
  | .bne _ => 2
  | .bh _ => 2
  | .bp _ => 2
  | .bsa _ => 2
  | .bge _ => 2
  | .bgt _ => 2

/-! ### The opcode map of rule R97, with masks and matches -/

/-- The sixteen encodings, in the order of rule R97. -/
inductive Encoding where
  | addReg | addImm5 | addi | sub | movReg | movImm5 | movImm32 | jmpReg | jmpDisp32
  | cmpReg | cmpImm5 | bcond | ldwDisp16 | ldwDisp23 | stwDisp16 | stwDisp23
deriving DecidableEq, Repr

/-- A row of rule R97: length, mask and match over the whole instruction, and the extra condition `reg2 != 0`. -/
structure OpcodeRow where
  lengthBits : Nat
  mask : BitVec 48
  pattern : BitVec 48
  reg2NotZero : Bool
deriving DecidableEq, Repr

/-- The table of rule R97. -/
def Encoding.row : Encoding → OpcodeRow
  | .addReg => ⟨16, 0x07E0, 0x01C0, false⟩
  | .addImm5 => ⟨16, 0x07E0, 0x0240, false⟩
  | .addi => ⟨32, 0x000007E0, 0x00000600, false⟩
  | .sub => ⟨16, 0x07E0, 0x01A0, false⟩
  | .movReg => ⟨16, 0x07E0, 0x0000, true⟩
  | .movImm5 => ⟨16, 0x07E0, 0x0200, true⟩
  | .movImm32 => ⟨48, 0x00000000FFE0, 0x000000000620, false⟩
  | .jmpReg => ⟨16, 0xFFE0, 0x0060, false⟩
  | .jmpDisp32 => ⟨48, 0x00000001FFE0, 0x0000000006E0, false⟩
  | .cmpReg => ⟨16, 0x07E0, 0x01E0, false⟩
  | .cmpImm5 => ⟨16, 0x07E0, 0x0260, false⟩
  | .bcond => ⟨16, 0x0780, 0x0580, false⟩
  | .ldwDisp16 => ⟨32, 0x000107E0, 0x00010720, false⟩
  | .ldwDisp23 => ⟨48, 0x0000001FFFE0, 0x000000090780, false⟩
  | .stwDisp16 => ⟨32, 0x000107E0, 0x00010760, false⟩
  | .stwDisp23 => ⟨48, 0x0000001FFFE0, 0x0000000F0780, false⟩

/-- "an instruction word `ins` selects a row when `ins & mask == match` and the row's extra condition holds" (rule R97). -/
def Encoding.selects (e : Encoding) (ins : BitVec 48) : Bool :=
  ins &&& e.row.mask == e.row.pattern && (!e.row.reg2NotZero || ins.extractLsb' 11 5 != 0#5)

/-- The row of rule R97 an instruction belongs to. -/
def Instr.encoding : Instr → Encoding
  | .addReg _ _ => .addReg
  | .addImm5 _ _ => .addImm5
  | .addi _ _ _ => .addi
  | .sub _ _ => .sub
  | .movReg _ _ => .movReg
  | .movImm5 _ _ => .movImm5
  | .movImm32 _ _ => .movImm32
  | .jmpReg _ => .jmpReg
  | .jmpDisp32 _ _ => .jmpDisp32
  | .cmpReg _ _ => .cmpReg
  | .cmpImm5 _ _ => .cmpImm5
  | .ldwDisp16 _ _ _ => .ldwDisp16
  | .ldwDisp23 _ _ _ => .ldwDisp23
  | .stwDisp16 _ _ _ => .stwDisp16
  | .stwDisp23 _ _ _ => .stwDisp23
  | .bv _ => .bcond
  | .bl _ => .bcond
  | .be _ => .bcond
  | .bnh _ => .bcond
  | .bn _ => .bcond
  | .br _ => .bcond
  | .blt _ => .bcond
  | .ble _ => .bcond
  | .bnv _ => .bcond
  | .bnl _ => .bcond
  | .bne _ => .bcond
  | .bh _ => .bcond
  | .bp _ => .bcond
  | .bsa _ => .bcond
  | .bge _ => .bcond
  | .bgt _ => .bcond

end Sys2Proof
end

