-- ==== Sys2Proof/Machine/Memory.lean ====
section
/-! DEFINITION. Memory as state (10_state.md rule R36): the bytes of the one address space of 2^32 addresses, and the
sets of addresses `ADMIT` and `CODE` as lists of regions. -/

namespace Sys2Proof.Machine

/-- Memory lists the bytes that differ from what an unlisted address reads as, by rising address. -/
abbrev Memory := List Host.Cell

/-- What an unlisted address reads as. DESIGN CHOICE, unsafe, log 4: the spec gives no content (10_state.md rule R41). It is a
default in `State.reset` alone: a launch gives every byte of `ADMIT`. -/
def Memory.unlisted : Byte := 0x00#8

/-- The canonical form: addresses strictly rising and below 2^32, no entry equal to what an unlisted address reads as. -/
abbrev Memory.wf (m : Memory) : Prop :=
  List.Pairwise (fun c d : Host.Cell => c.1 < d.1) m ∧
    ∀ c ∈ m, c.2 ≠ Memory.unlisted ∧ c.1 < addressCount

/-- The byte at an address. -/
def Memory.read (m : Memory) (a : Nat) : Byte :=
  match m with
  | [] => Memory.unlisted
  | (a', b') :: rest => if a = a' then b' else Memory.read rest a

/-- The list with a cell put in front, left out where it says what an unlisted address reads as. -/
def Memory.cons (a : Nat) (b : Byte) (rest : Memory) : Memory :=
  if b = Memory.unlisted then rest else (a, b) :: rest

/-- Memory after a byte is written, in canonical form again. -/
def Memory.write (m : Memory) (a : Nat) (b : Byte) : Memory :=
  match m with
  | [] => Memory.cons a b []
  | (a', b') :: rest =>
    if a < a' then Memory.cons a b ((a', b') :: rest)
    else if a = a' then Memory.cons a b rest
    else (a', b') :: Memory.write rest a b

/-- Memory after cells are written, one after another: where two have one address the later counts. -/
def Memory.writeCells (m : Memory) (cells : List Host.Cell) : Memory :=
  cells.foldl (fun m c => m.write c.1 c.2) m

/-- A run of byte addresses, `base` to `base + size - 1`. DESIGN CHOICE, log 6: what of it lies at 2^32 or above names no
address, for an address is 32 bits (20_memory.md rule R50), and the run does not wrap to 0. -/
structure Region where
  base : Nat
  size : Nat
deriving DecidableEq, Repr

/-- The address lies in the region. -/
def Region.has (r : Region) (a : Nat) : Bool := r.base ≤ a && a < r.base + r.size

/-- The address lies in one of the regions: how a list of regions is a set of addresses. -/
def regionsHave (rs : List Region) (a : Nat) : Bool := rs.any fun r => r.has a

/-- Every address of the first set, of the 2^32 there are (log 6), is in the second. It is enough to look at each base of the first and
each end of the second where that is an address of the first set: below any other address of the difference stands another one. -/
def regionsSubset (inner outer : List Region) : Bool :=
  (inner.map (fun r => r.base) ++ outer.map (fun r => r.base + r.size)).all fun a =>
    decide (addressCount ≤ a) || !regionsHave inner a || regionsHave outer a

end Sys2Proof.Machine
end

