-- ==== Sys2Proof/Machine/State.lean ====
section
/-! DEFINITION. The state of the machine: the tuple of 10_state.md rule R38, with the sets `ADMIT` and `CODE` that a launch
chooses and no step changes (00_scope.md rule R4); the faults of 60_exceptions.md rule R190; the state after reset. -/

namespace Sys2Proof.Machine

/-- Why the machine stops (60_exceptions.md rule R190). Each fault carries the `pc` of the instruction that raised it and
one more value. All three are safe: the machine stops where the hardware may go on ("toward unprovable"). -/
inductive Fault where
  /-- Raised by decode (30_encoding.md rules R98 to R101). Safe. Log 12. -/
  | reservedInstruction (pc : Word) (hw0 : Half)
  /-- Raised by LD.W and ST.W where the address is no multiple of 4 (20_memory.md rule R54). Safe. Log 9. -/
  | misalignedAccess (pc addr : Word)
  /-- Raised by LD.W and ST.W outside `ADMIT`, by ST.W inside `CODE`, by every fetch outside `CODE` (20_memory.md
  rules R51, R55 to R57, R65). Safe. Log 10, log 11. -/
  | accessNotAdmitted (pc addr : Word)
deriving DecidableEq, Repr

/-- Why a step has no meaning. No arm of `exec` and no meaning of this model answers with one. -/
inductive Refusal where
  /-- Raised by an arm of `exec` whose instruction has no meaning yet: there is none left. Safe. -/
  | notModelled (mnemonic : String)
deriving DecidableEq, Repr

/-- The five status flags the source names as fields of the PSW (10_state.md rules R27 to R34). Log 25. -/
structure Flags where
  /-- `CY`, carry or borrow (rule R28). -/
  cy : Bool
  /-- `OV`, overflow (rule R29). -/
  ov : Bool
  /-- `S`, sign (rule R30). -/
  s : Bool
  /-- `Z`, zero (rule R31). -/
  z : Bool
  /-- `SAT`, saturated: read by BSA and written by nothing in scope (rule R32). -/
  sat : Bool
deriving DecidableEq, Repr

/-- The complete state (10_state.md rule R38). -/
structure State where
  /-- The general registers; slot 0 is read and written only through `State.x` and `State.setX` (rules R20, R22). -/
  regs : Vector Word 32
  /-- The program counter: the address of the first byte of the instruction (rule R24). -/
  pc : Word
  /-- The flags of the PSW (rule R27). -/
  flags : Flags
  /-- The bytes of memory (rule R36). -/
  mem : Memory
  /-- `ADMIT`, the addresses backed by memory (20_memory.md rule R51). -/
  admitted : List Region
  /-- `CODE`, the addresses holding the program (20_memory.md rule R65). -/
  code : List Region
  /-- The `faulted` mark (60_exceptions.md rule R192). -/
  faulted : Option Fault
deriving DecidableEq, Repr

/-- The outcome of a step of this machine. -/
abbrev Outcome := Host.Outcome State Fault Refusal

/-- The machine right after reset. The spec gives `x[0] = 0` (10_state.md rule R39) and `faulted = none` (rule R41), and
models no reset (70_reset_and_hazards.md rule R220): the other values are DESIGN CHOICE, unsafe, log 1 to 5. No program is
loaded: `CODE` is empty. -/
def State.reset : State where
  regs := Vector.replicate 32 0x00000000#32
  pc := 0x00001000#32
  flags := { cy := false, ov := false, s := false, z := false, sat := false }
  mem := []
  admitted := [⟨0, addressCount⟩]
  code := []
  faulted := none

end Sys2Proof.Machine
end

