-- ==== Sys2Proof/Machine/Flags.lean ====
section
/-! DEFINITION. Every flag computation: addition and subtraction (40_arithmetic.md rules R121, R122) and the sixteen
conditions (41_branch.md rule R150). -/

namespace Sys2Proof.Machine

/-- The result and the four flags of an addition or a subtraction (40_arithmetic.md rules R121, R122). -/
structure ArithResult where
  r : Word
  cy : Bool
  ov : Bool
  s : Bool
  z : Bool
deriving DecidableEq, Repr

/-- `AddFlags(a, b)` (40_arithmetic.md rule R121). Log 20. -/
def addFlags (a b : Word) : ArithResult :=
  let t := a.toNat + b.toNat
  let r : Word := BitVec.ofNat 32 t
  { r := r
    cy := decide (4294967296 ≤ t)
    ov := a.msb == b.msb && r.msb != a.msb
    s := r.msb
    z := r == 0#32 }

/-- `SubFlags(a, b)`, the subtraction `a - b` (40_arithmetic.md rule R122). Log 20. -/
def subFlags (a b : Word) : ArithResult :=
  let r : Word := a - b
  { r := r
    cy := decide (a.toNat < b.toNat)
    ov := a.msb != b.msb && r.msb != a.msb
    s := r.msb
    z := r == 0#32 }

/-- The flags after an instruction that writes CY, OV, S and Z from a result; SAT is unchanged (10_state.md rule R33). -/
def Flags.writeArith (f : Flags) (r : ArithResult) : Flags :=
  { cy := r.cy, ov := r.ov, s := r.s, z := r.z, sat := f.sat }

/-- `CondHolds` (41_branch.md rule R150). -/
def condHolds (c : Cond) (f : Flags) : Bool :=
  match c with
  | .v => f.ov
  | .l => f.cy
  | .e => f.z
  | .nh => f.cy || f.z
  | .n => f.s
  | .always => true
  | .lt => f.s ^^ f.ov
  | .le => (f.s ^^ f.ov) || f.z
  | .nv => !f.ov
  | .nl => !f.cy
  | .ne => !f.z
  | .h => !(f.cy || f.z)
  | .p => !f.s
  | .sa => f.sat
  | .ge => !(f.s ^^ f.ov)
  | .gt => !((f.s ^^ f.ov) || f.z)

end Sys2Proof.Machine
end

