-- ==== Sys2Proof/Machine/Operands.lean ====
section
/-! DEFINITION. The operand forms (30_encoding.md rules R90 to R96): the 32-bit value each immediate and displacement
stands for. -/

namespace Sys2Proof.Machine

/-- `sext_32` (00_scope.md rule R9). Log 30. -/
def sext32 {w : Nat} (v : BitVec w) : Word := v.signExtend 32

/-- The value of `imm5`, -16 to 15 (rule R90). -/
def imm5Value (imm5 : BitVec 5) : Word := sext32 imm5

/-- The value of `imm16`, -32768 to 32767 (rule R91). -/
def imm16Value (imm16 : BitVec 16) : Word := sext32 imm16

/-- `imm32` is used as it stands (rule R92). -/
def imm32Value (imm32 : BitVec 32) : Word := imm32

/-- The value of `disp9`, even, -256 to 254 (rule R93). -/
def disp9Value (disp9 : BitVec 9) : Word := sext32 disp9

/-- The value of `disp16`, even, -32768 to 32766 (rule R94). -/
def disp16Value (disp16 : BitVec 16) : Word := sext32 disp16

/-- The value of `disp23`, even, -4194304 to 4194302 (rule R95). -/
def disp23Value (disp23 : BitVec 23) : Word := sext32 disp23

/-- `disp32` is used as it stands (rule R96). -/
def disp32Value (disp32 : BitVec 32) : Word := disp32

end Sys2Proof.Machine
end

