-- ==== Sys2Proof/Machine/Ops.lean ====
section
/-! DEFINITION. The named operations over registers, flags, the program counter and memory, raising a fault, and
fetching and decoding an instruction. The machine has no exception entry and no return from one (60_exceptions.md rules
R195, R196): `raise` is what stands in their place. -/

namespace Sys2Proof.Machine

/-! ### Single fields -/

/-- The state with another program counter. -/
def State.setPc (s : State) (v : Word) : State := { s with pc := v }

/-- The state with other flags. -/
def State.setFlags (s : State) (f : Flags) : State := { s with flags := f }

/-- The state with other memory contents. -/
def State.setMem (s : State) (m : Memory) : State := { s with mem := m }

/-- The state with the `faulted` mark set (60_exceptions.md rule R192). -/
def State.setFaulted (s : State) (f : Fault) : State := { s with faulted := some f }

/-! ### Registers -/

/-- `x[i]` read (00_scope.md rule R10): r0 reads as zero (10_state.md rule R22). -/
def State.x (s : State) (i : Reg) : Word := if Config.r0Zero && i == 0 then 0x00000000#32 else s.regs[i.val]

/-- `x[i] <- v` (00_scope.md rule R10): a write to r0 is discarded (10_state.md rule R22). -/
def State.setX (s : State) (i : Reg) (v : Word) : State :=
  if Config.r0Zero && i == 0 then s else { s with regs := s.regs.set i.val v i.isLt }

/-! ### Program counter -/

/-- Sequential flow: `pc <- (pc + L) mod 2^32`, `L` in bytes (10_state.md rule R26). Log 19. -/
def State.advance (s : State) (len : Word) : State := s.setPc (s.pc + len)

/-- A control transfer: `pc <- t` with bit 0 forced to 0 (10_state.md rule R25). -/
def State.jump (s : State) (t : Word) : State := s.setPc (t &&& 0xFFFFFFFE#32)

/-! ### Faults -/

/-- `raise F(info)`: the instruction ends at once and nothing is written (00_scope.md rule R12, 60_exceptions.md
rule R192). The mark is written by `State.afterStep`. Log 16. -/
def raise (f : Fault) : Outcome := .fault f

/-! ### Memory -/

/-- The byte address is in `ADMIT` (20_memory.md rule R51). -/
def State.inAdmit (s : State) (a : Word) : Bool := regionsHave s.admitted a.toNat

/-- The byte address is in `CODE` (20_memory.md rule R65). -/
def State.inCode (s : State) (a : Word) : Bool := regionsHave s.code a.toNat

/-- The byte in memory at an address. -/
def State.byteAt (s : State) (a : Word) : Byte := s.mem.read a.toNat

/-- The four byte addresses of the word at `addr`. -/
def wordAddrs (addr : Word) : List Word := [addr, addr + 1#32, addr + 2#32, addr + 3#32]

/-- The word whose bytes stand at `addr` to `addr + 3`, in this order (20_memory.md rule R52). Log 8. -/
def wordOfBytes (b0 b1 b2 b3 : Byte) : Word :=
  match Config.endian with
  | .little => b3 ++ b2 ++ b1 ++ b0
  | .big => b0 ++ b1 ++ b2 ++ b3

/-- The byte of a word that stands at `addr + k`, `k` from 0 to 3 (20_memory.md rule R52). Log 8. -/
def byteOfWord (v : Word) (k : Nat) : Byte :=
  match Config.endian with
  | .little => v.extractLsb' (8 * k) 8
  | .big => v.extractLsb' (8 * (3 - k)) 8

/-- The address is a multiple of 4 (20_memory.md rule R54). -/
def aligned (addr : Word) : Bool := addr.extractLsb' 0 2 == 0#2

/-- The test of a word access's alignment (20_memory.md rule R54): the fault it raises, if any. Log 9. -/
def State.alignmentFault (s : State) (addr : Word) : Option Fault :=
  if aligned addr then none
  else
    match Config.misalignedWord with
    | .fault => some (.misalignedAccess s.pc addr)

/-- `MemRead(addr, 4)` (20_memory.md rule R55). -/
def State.memRead (s : State) (addr : Word) : Except Fault Word :=
  match s.alignmentFault addr with
  | some f => .error f
  | none =>
    if (wordAddrs addr).all s.inAdmit then
      .ok (wordOfBytes (s.byteAt addr) (s.byteAt (addr + 1#32)) (s.byteAt (addr + 2#32)) (s.byteAt (addr + 3#32)))
    else .error (.accessNotAdmitted s.pc addr)

/-- Memory with the four bytes of a word written at `addr` to `addr + 3` (20_memory.md rule R56). -/
def Memory.writeWord (m : Memory) (addr v : Word) : Memory :=
  let m0 := m.write addr.toNat (byteOfWord v 0)
  let m1 := Memory.write m0 (addr + 1#32).toNat (byteOfWord v 1)
  let m2 := Memory.write m1 (addr + 2#32).toNat (byteOfWord v 2)
  Memory.write m2 (addr + 3#32).toNat (byteOfWord v 3)

/-- `MemWrite(addr, 4, v)` (20_memory.md rule R56). -/
def State.memWrite (s : State) (addr v : Word) : Except Fault State :=
  match s.alignmentFault addr with
  | some f => .error f
  | none =>
    if (wordAddrs addr).all s.inAdmit && (wordAddrs addr).all (fun a => !s.inCode a) then
      .ok (s.setMem (s.mem.writeWord addr v))
    else .error (.accessNotAdmitted s.pc addr)

/-- The effective address: base register plus sign-extended displacement, modulo 2^32 (20_memory.md rule R67). -/
def State.effectiveAddress (s : State) (base : Reg) (disp : Word) : Word := s.x base + disp

/-! ### Whole effects that several instructions share -/

/-- Write CY, OV, S and Z from a result (10_state.md rule R33). -/
def State.writeArith (s : State) (r : ArithResult) : State := s.setFlags (s.flags.writeArith r)

/-- An addition or subtraction that stores its result: register, four flags, `pc` (40_arithmetic.md rules R123 to R126). -/
def finishArith (s : State) (dest : Reg) (r : ArithResult) (len : Word) : Outcome :=
  .next (((s.setX dest r.r).writeArith r).advance len)

/-- A comparison: four flags and `pc` (40_arithmetic.md rules R130, R131). -/
def finishCompare (s : State) (r : ArithResult) (len : Word) : Outcome := .next ((s.writeArith r).advance len)

/-- A transfer to a register: register and `pc`, no flag (40_arithmetic.md rules R127 to R129). -/
def finishMove (s : State) (dest : Reg) (v len : Word) : Outcome := .next ((s.setX dest v).advance len)

/-- Bcond (41_branch.md rule R153): `pc` is this instruction's own address. -/
def branchOn (s : State) (c : Cond) (disp9 : BitVec 9) : Outcome :=
  if condHolds c s.flags then .next (s.jump (s.pc + disp9Value disp9)) else .next (s.advance 2#32)

/-- LD.W (42_load.md rules R170, R171): the read is made, and may fault, whatever the destination. -/
def finishLoad (s : State) (addr : Word) (dest : Reg) (len : Word) : Outcome :=
  match s.memRead addr with
  | .error f => raise f
  | .ok v => .next ((s.setX dest v).advance len)

/-- ST.W (43_store.md rules R180, R181). -/
def finishStore (s : State) (addr : Word) (src : Reg) (len : Word) : Outcome :=
  match s.memWrite addr (s.x src) with
  | .error f => raise f
  | .ok t => .next (t.advance len)

/-! ### Fetch and decode -/

/-- `FetchHalfword(addr)` (20_memory.md rule R57). -/
def State.fetchHalfword (s : State) (addr : Word) : Except Fault Half :=
  if s.inCode addr && s.inCode (addr + 1#32) then .ok (halfOfBytes (s.byteAt addr) (s.byteAt (addr + 1#32)))
  else .error (.accessNotAdmitted s.pc addr)

/-- The halfwords from `addr` on that can be fetched, at most `n`: the list ends before the first that cannot. -/
def State.fetchWindow (s : State) (addr : Word) : Nat → List Half
  | 0 => []
  | n + 1 =>
    match s.fetchHalfword addr with
    | .error _ => []
    | .ok h => h :: s.fetchWindow (addr + 2#32) n

/-- Fetch and decode the instruction at `pc`, in the order of 30_encoding.md rule R98 and 60_exceptions.md rule R194: where
decoding needs halfword `k` and it cannot be fetched, the fault is that of its fetch at `pc + 2k`. -/
def State.fetchInstr (s : State) : Except Fault Instr :=
  match decode (s.fetchWindow s.pc 3) with
  | .ok i _ => .ok i
  | .reserved hw0 => .error (.reservedInstruction s.pc hw0)
  | .missing k => .error (.accessNotAdmitted s.pc (s.pc + BitVec.ofNat 32 (2 * k)))

/-- Bytes placed in memory from an address upward and added to `ADMIT` and to `CODE`: how a launch lays a program down
(20_memory.md rule R53, 70_reset_and_hazards.md rule R221). -/
def State.placeCode (s : State) (addr : Word) : List Byte → State
  | [] => s
  | b :: rest =>
    { s with
      mem := s.mem.write addr.toNat b
      admitted := ⟨addr.toNat, 1⟩ :: s.admitted
      code := ⟨addr.toNat, 1⟩ :: s.code }.placeCode (addr + 1#32) rest

end Sys2Proof.Machine
end

