-- ==== Sys2Proof/Machine/Arith.lean ====
section
/-! DEFINITION. ADD, ADDI, SUB, MOV, CMP (40_arithmetic.md). -/

namespace Sys2Proof.Machine

/-- ADD (1), `ADD reg1, reg2` (rule R123). -/
def execAddReg (reg1 reg2 : Reg) (s : State) : Outcome :=
  finishArith s reg2 (addFlags (s.x reg2) (s.x reg1)) 2#32

/-- ADD (2), `ADD imm5, reg2` (rule R124). -/
def execAddImm5 (imm5 : BitVec 5) (reg2 : Reg) (s : State) : Outcome :=
  finishArith s reg2 (addFlags (s.x reg2) (imm5Value imm5)) 2#32

/-- ADDI, `ADDI imm16, reg1, reg2` (rule R125). -/
def execAddi (imm16 : BitVec 16) (reg1 reg2 : Reg) (s : State) : Outcome :=
  finishArith s reg2 (addFlags (s.x reg1) (imm16Value imm16)) 4#32

/-- SUB, `SUB reg1, reg2`: reg2 minus reg1 (rule R126). -/
def execSub (reg1 reg2 : Reg) (s : State) : Outcome :=
  finishArith s reg2 (subFlags (s.x reg2) (s.x reg1)) 2#32

/-- MOV (1), `MOV reg1, reg2` (rule R127). -/
def execMovReg (reg1 reg2 : Reg) (s : State) : Outcome :=
  finishMove s reg2 (s.x reg1) 2#32

/-- MOV (2), `MOV imm5, reg2` (rule R128). -/
def execMovImm5 (imm5 : BitVec 5) (reg2 : Reg) (s : State) : Outcome :=
  finishMove s reg2 (imm5Value imm5) 2#32

/-- MOV (3), `MOV imm32, reg1` (rule R129). -/
def execMovImm32 (imm32 : BitVec 32) (reg1 : Reg) (s : State) : Outcome :=
  finishMove s reg1 (imm32Value imm32) 6#32

/-- CMP (1), `CMP reg1, reg2`: the flags of reg2 minus reg1 (rule R130). -/
def execCmpReg (reg1 reg2 : Reg) (s : State) : Outcome :=
  finishCompare s (subFlags (s.x reg2) (s.x reg1)) 2#32

/-- CMP (2), `CMP imm5, reg2` (rule R131). -/
def execCmpImm5 (imm5 : BitVec 5) (reg2 : Reg) (s : State) : Outcome :=
  finishCompare s (subFlags (s.x reg2) (imm5Value imm5)) 2#32

end Sys2Proof.Machine
end

