-- ==== Sys2Proof/Machine/Branch.lean ====
section
/-! DEFINITION. JMP and the sixteen rows of Bcond (41_branch.md). No delay slot and no link (rule R154; log 22). -/

namespace Sys2Proof.Machine

/-- JMP (1), `JMP [reg1]` (rule R151). Its encoding is PRESUMED, log 13. -/
def execJmpReg (reg1 : Reg) (s : State) : Outcome := .next (s.jump (s.x reg1))

/-- JMP (2), `JMP disp32 [reg1]` (rule R152). Its encoding is PRESUMED, log 14. -/
def execJmpDisp32 (disp32 : BitVec 32) (reg1 : Reg) (s : State) : Outcome :=
  .next (s.jump (s.x reg1 + disp32Value disp32))

/-- BV, Bcond with code 0000: OV = 1 (rules R150, R153). -/
def execBv (disp9 : BitVec 9) (s : State) : Outcome := branchOn s .v disp9

/-- BL, Bcond with code 0001: CY = 1 (rules R150, R153). -/
def execBl (disp9 : BitVec 9) (s : State) : Outcome := branchOn s .l disp9

/-- BE, Bcond with code 0010: Z = 1 (rules R150, R153). -/
def execBe (disp9 : BitVec 9) (s : State) : Outcome := branchOn s .e disp9

/-- BNH, Bcond with code 0011: (CY or Z) = 1 (rules R150, R153). -/
def execBnh (disp9 : BitVec 9) (s : State) : Outcome := branchOn s .nh disp9

/-- BN, Bcond with code 0100: S = 1 (rules R150, R153). -/
def execBn (disp9 : BitVec 9) (s : State) : Outcome := branchOn s .n disp9

/-- BR, Bcond with code 0101: always (rules R150, R153). -/
def execBr (disp9 : BitVec 9) (s : State) : Outcome := branchOn s .always disp9

/-- BLT, Bcond with code 0110: (S xor OV) = 1 (rules R150, R153). -/
def execBlt (disp9 : BitVec 9) (s : State) : Outcome := branchOn s .lt disp9

/-- BLE, Bcond with code 0111: ((S xor OV) or Z) = 1 (rules R150, R153). -/
def execBle (disp9 : BitVec 9) (s : State) : Outcome := branchOn s .le disp9

/-- BNV, Bcond with code 1000: OV = 0 (rules R150, R153). -/
def execBnv (disp9 : BitVec 9) (s : State) : Outcome := branchOn s .nv disp9

/-- BNL, Bcond with code 1001: CY = 0 (rules R150, R153). -/
def execBnl (disp9 : BitVec 9) (s : State) : Outcome := branchOn s .nl disp9

/-- BNE, Bcond with code 1010: Z = 0 (rules R150, R153). -/
def execBne (disp9 : BitVec 9) (s : State) : Outcome := branchOn s .ne disp9

/-- BH, Bcond with code 1011: (CY or Z) = 0 (rules R150, R153). -/
def execBh (disp9 : BitVec 9) (s : State) : Outcome := branchOn s .h disp9

/-- BP, Bcond with code 1100: S = 0 (rules R150, R153). -/
def execBp (disp9 : BitVec 9) (s : State) : Outcome := branchOn s .p disp9

/-- BSA, Bcond with code 1101: SAT = 1 (rules R150, R153). -/
def execBsa (disp9 : BitVec 9) (s : State) : Outcome := branchOn s .sa disp9

/-- BGE, Bcond with code 1110: (S xor OV) = 0 (rules R150, R153). -/
def execBge (disp9 : BitVec 9) (s : State) : Outcome := branchOn s .ge disp9

/-- BGT, Bcond with code 1111: ((S xor OV) or Z) = 0 (rules R150, R153). -/
def execBgt (disp9 : BitVec 9) (s : State) : Outcome := branchOn s .gt disp9

end Sys2Proof.Machine
end

