-- ==== Sys2Proof/Machine/LoadStore.lean ====
section
/-! DEFINITION. LD.W (42_load.md) and ST.W (43_store.md). -/

namespace Sys2Proof.Machine

/-- LD.W (1), `LD.W disp16 [reg1], reg2` (42_load.md rule R170). -/
def execLdwDisp16 (disp16 : BitVec 16) (reg1 reg2 : Reg) (s : State) : Outcome :=
  finishLoad s (s.effectiveAddress reg1 (disp16Value disp16)) reg2 4#32

/-- LD.W (2), `LD.W disp23 [reg1], reg3` (42_load.md rule R171). -/
def execLdwDisp23 (disp23 : BitVec 23) (reg1 reg3 : Reg) (s : State) : Outcome :=
  finishLoad s (s.effectiveAddress reg1 (disp23Value disp23)) reg3 6#32

/-- ST.W (1), `ST.W reg2, disp16 [reg1]` (43_store.md rule R180). -/
def execStwDisp16 (reg2 : Reg) (disp16 : BitVec 16) (reg1 : Reg) (s : State) : Outcome :=
  finishStore s (s.effectiveAddress reg1 (disp16Value disp16)) reg2 4#32

/-- ST.W (2), `ST.W reg3, disp23 [reg1]` (43_store.md rule R181). -/
def execStwDisp23 (reg3 : Reg) (disp23 : BitVec 23) (reg1 : Reg) (s : State) : Outcome :=
  finishStore s (s.effectiveAddress reg1 (disp23Value disp23)) reg3 6#32

end Sys2Proof.Machine
end

