-- ==== Sys2Proof/Machine/Dispatch.lean ====
section
/-! DEFINITION. One arm per row of spec/opcode_table.json. -/

namespace Sys2Proof.Machine

-- The meaning of each instruction (00_scope.md rule R14, "execute the row's rule").
def exec (i : Instr) (s : State) : Host.Outcome State Fault Refusal :=
  match i with
  | .addReg reg1 reg2 => Sys2Proof.Machine.execAddReg reg1 reg2 s
  | .addImm5 imm5 reg2 => Sys2Proof.Machine.execAddImm5 imm5 reg2 s
  | .addi imm16 reg1 reg2 => Sys2Proof.Machine.execAddi imm16 reg1 reg2 s
  | .sub reg1 reg2 => Sys2Proof.Machine.execSub reg1 reg2 s
  | .movReg reg1 reg2 => Sys2Proof.Machine.execMovReg reg1 reg2 s
  | .movImm5 imm5 reg2 => Sys2Proof.Machine.execMovImm5 imm5 reg2 s
  | .movImm32 imm32 reg1 => Sys2Proof.Machine.execMovImm32 imm32 reg1 s
  | .jmpReg reg1 => Sys2Proof.Machine.execJmpReg reg1 s
  | .jmpDisp32 disp32 reg1 => Sys2Proof.Machine.execJmpDisp32 disp32 reg1 s
  | .cmpReg reg1 reg2 => Sys2Proof.Machine.execCmpReg reg1 reg2 s
  | .cmpImm5 imm5 reg2 => Sys2Proof.Machine.execCmpImm5 imm5 reg2 s
  | .ldwDisp16 disp16 reg1 reg2 => Sys2Proof.Machine.execLdwDisp16 disp16 reg1 reg2 s
  | .ldwDisp23 disp23 reg1 reg3 => Sys2Proof.Machine.execLdwDisp23 disp23 reg1 reg3 s
  | .stwDisp16 reg2 disp16 reg1 => Sys2Proof.Machine.execStwDisp16 reg2 disp16 reg1 s
  | .stwDisp23 reg3 disp23 reg1 => Sys2Proof.Machine.execStwDisp23 reg3 disp23 reg1 s
  | .bv disp9 => Sys2Proof.Machine.execBv disp9 s
  | .bl disp9 => Sys2Proof.Machine.execBl disp9 s
  | .be disp9 => Sys2Proof.Machine.execBe disp9 s
  | .bnh disp9 => Sys2Proof.Machine.execBnh disp9 s
  | .bn disp9 => Sys2Proof.Machine.execBn disp9 s
  | .br disp9 => Sys2Proof.Machine.execBr disp9 s
  | .blt disp9 => Sys2Proof.Machine.execBlt disp9 s
  | .ble disp9 => Sys2Proof.Machine.execBle disp9 s
  | .bnv disp9 => Sys2Proof.Machine.execBnv disp9 s
  | .bnl disp9 => Sys2Proof.Machine.execBnl disp9 s
  | .bne disp9 => Sys2Proof.Machine.execBne disp9 s
  | .bh disp9 => Sys2Proof.Machine.execBh disp9 s
  | .bp disp9 => Sys2Proof.Machine.execBp disp9 s
  | .bsa disp9 => Sys2Proof.Machine.execBsa disp9 s
  | .bge disp9 => Sys2Proof.Machine.execBge disp9 s
  | .bgt disp9 => Sys2Proof.Machine.execBgt disp9 s

end Sys2Proof.Machine
end

