-- ==== Sys2Proof/Machine/Step.lean ====
section
/-! DEFINITION. One step (00_scope.md rule R14), what a step leaves in the state, and where an instruction is stored so that
the next step fetches it. -/

namespace Sys2Proof.Machine

/-- One step of the machine (00_scope.md rule R14): fetch and decode, then execute. A state whose `faulted` mark is set has
no step (60_exceptions.md rule R192). -/
def step (s : State) : Host.Outcome State Fault Refusal :=
  match s.faulted with
  | some f => raise f
  | none =>
    match s.fetchInstr with
    | .error f => raise f
    | .ok i => exec i s

/-- The state a step leaves: the next state, or, where the step raises a fault, the faulted state, in which nothing is
written but the mark (60_exceptions.md rule R192). -/
def State.afterStep (s : State) : State :=
  match step s with
  | .next t => t
  | .fault f => s.setFaulted f
  | .refused _ => s

/-- The state with an instruction of the opcode table loaded at `pc` as a launch loads it: its six bytes in memory, their
addresses in `ADMIT` and in `CODE`, no fault. Log 5. -/
def State.withFetchWord (s : State) (nbits w : Nat) : State :=
  { s.placeCode s.pc (tableBytes nbits w) with faulted := none }

end Sys2Proof.Machine
end

