-- ==== Sys2Proof/Assembly.lean ====
section
/-! DEFINITION. The assembler's side of the spec: the operand ranges (30_encoding.md rule R105), the twenty-two mnemonics of
Table 5-5 (rule R104, 41_branch.md rule R150), and the text of an instruction (rule R103). It affects no machine behaviour.
An operand out of its range has no encoding and is refused, never rounded or truncated. Log 32. -/

namespace Sys2Proof

/-- A register number, 0 to 31 (rule R105). -/
def asmReg (n : Nat) : Option Reg := if h : n < 32 then some ⟨n, h⟩ else none

/-- The register of a destination that may not be r0: reg2 of MOV (1) and MOV (2) (rule R105). -/
def asmMovReg2 (n : Nat) : Option Reg := (asmReg n).bind fun r => if r = 0 then none else some r

/-- A signed operand of `w` bits in its range (rule R105). -/
def asmSigned (w : Nat) (z : Int) : Option (BitVec w) :=
  if -(2 : Int) ^ (w - 1) ≤ z ∧ z < (2 : Int) ^ (w - 1) then some (BitVec.ofInt w z) else none

/-- An even signed displacement of `w` bits in its range (rule R105). -/
def asmEvenSigned (w : Nat) (z : Int) : Option (BitVec w) := if z % 2 = 0 then asmSigned w z else none

/-- `imm5`, -16 to 15 (rule R105). -/
def asmImm5 (z : Int) : Option (BitVec 5) := asmSigned 5 z

/-- `imm16`, -32768 to 32767 (rule R105). -/
def asmImm16 (z : Int) : Option (BitVec 16) := asmSigned 16 z

/-- `imm32`, 0 to 4294967295 or the same bit pattern written as a negative number (rule R105). -/
def asmImm32 (z : Int) : Option (BitVec 32) :=
  if -2147483648 ≤ z ∧ z < 4294967296 then some (BitVec.ofInt 32 z) else none

/-- `disp9`, even, -256 to 254 (rule R105). -/
def asmDisp9 (z : Int) : Option (BitVec 9) := asmEvenSigned 9 z

/-- `disp16`, even, -32768 to 32766 (rule R105). -/
def asmDisp16 (z : Int) : Option (BitVec 16) := asmEvenSigned 16 z

/-- `disp23`, even, -4194304 to 4194302 (rule R105). -/
def asmDisp23 (z : Int) : Option (BitVec 23) := asmEvenSigned 23 z

/-- `disp32`, even, any 32-bit value (rule R105). -/
def asmDisp32 (z : Int) : Option (BitVec 32) := if z % 2 = 0 then asmImm32 z else none

/-- The twenty-two mnemonics of Table 5-5, in the table's order, with the condition each names (41_branch.md rule R150). -/
def branchMnemonics : List (String × Cond) :=
  [("BGE", .ge), ("BGT", .gt), ("BLE", .le), ("BLT", .lt), ("BH", .h), ("BL", .l), ("BNH", .nh), ("BNL", .nl),
    ("BE", .e), ("BNE", .ne), ("BC", .l), ("BF", .ne), ("BN", .n), ("BNC", .nl), ("BNV", .nv), ("BNZ", .ne),
    ("BP", .p), ("BR", .always), ("BSA", .sa), ("BT", .e), ("BV", .v), ("BZ", .e)]

/-- The Bcond instruction of a mnemonic and a displacement, where both are legal (rules R104, R105). -/
def asmBranch (mnemonic : String) (z : Int) : Option Instr :=
  (branchMnemonics.lookup mnemonic).bind fun c => (asmDisp9 z).map (Instr.branch c)

/-- The text of a register operand (rule R103). -/
def regText (r : Reg) : String := "r" ++ toString r.val

/-- The text of a signed operand (rule R103). -/
def signedText {w : Nat} (v : BitVec w) : String := toString v.toInt

/-- The text of a memory operand or of a jump target, `disp [reg1]` (rule R103). -/
def addressText {w : Nat} (disp : BitVec w) (reg1 : Reg) : String := signedText disp ++ " [" ++ regText reg1 ++ "]"

/-- An instruction in assembler syntax: the mnemonic, the sources, then the destination (rule R103). A shared condition code
is written by the name that comes first in Table 5-5 (rule R104). -/
def Instr.text : Instr → String
  | .addReg reg1 reg2 => "ADD " ++ regText reg1 ++ ", " ++ regText reg2
  | .addImm5 imm5 reg2 => "ADD " ++ signedText imm5 ++ ", " ++ regText reg2
  | .addi imm16 reg1 reg2 => "ADDI " ++ signedText imm16 ++ ", " ++ regText reg1 ++ ", " ++ regText reg2
  | .sub reg1 reg2 => "SUB " ++ regText reg1 ++ ", " ++ regText reg2
  | .movReg reg1 reg2 => "MOV " ++ regText reg1 ++ ", " ++ regText reg2
  | .movImm5 imm5 reg2 => "MOV " ++ signedText imm5 ++ ", " ++ regText reg2
  | .movImm32 imm32 reg1 => "MOV " ++ signedText imm32 ++ ", " ++ regText reg1
  | .jmpReg reg1 => "JMP [" ++ regText reg1 ++ "]"
  | .jmpDisp32 disp32 reg1 => "JMP " ++ addressText disp32 reg1
  | .cmpReg reg1 reg2 => "CMP " ++ regText reg1 ++ ", " ++ regText reg2
  | .cmpImm5 imm5 reg2 => "CMP " ++ signedText imm5 ++ ", " ++ regText reg2
  | .ldwDisp16 disp16 reg1 reg2 => "LD.W " ++ addressText disp16 reg1 ++ " , " ++ regText reg2
  | .ldwDisp23 disp23 reg1 reg3 => "LD.W " ++ addressText disp23 reg1 ++ " , " ++ regText reg3
  | .stwDisp16 reg2 disp16 reg1 => "ST.W " ++ regText reg2 ++ ", " ++ addressText disp16 reg1
  | .stwDisp23 reg3 disp23 reg1 => "ST.W " ++ regText reg3 ++ ", " ++ addressText disp23 reg1
  | .bv disp9 => "BV " ++ signedText disp9
  | .bl disp9 => "BL " ++ signedText disp9
  | .be disp9 => "BE " ++ signedText disp9
  | .bnh disp9 => "BNH " ++ signedText disp9
  | .bn disp9 => "BN " ++ signedText disp9
  | .br disp9 => "BR " ++ signedText disp9
  | .blt disp9 => "BLT " ++ signedText disp9
  | .ble disp9 => "BLE " ++ signedText disp9
  | .bnv disp9 => "BNV " ++ signedText disp9
  | .bnl disp9 => "BNL " ++ signedText disp9
  | .bne disp9 => "BNE " ++ signedText disp9
  | .bh disp9 => "BH " ++ signedText disp9
  | .bp disp9 => "BP " ++ signedText disp9
  | .bsa disp9 => "BSA " ++ signedText disp9
  | .bge disp9 => "BGE " ++ signedText disp9
  | .bgt disp9 => "BGT " ++ signedText disp9

end Sys2Proof
end

