-- ==== Sys2Proof/Machine/Launch.lean ====
section
/-! DEFINITION. The launch: how a run of the spec begins (70_reset_and_hazards.md rules R220 to R223). Every launch-state
input is an argument, so that a statement can quantify over it, and none has a default: a launch that leaves a byte of `ADMIT`
open is refused. -/

namespace Sys2Proof.Machine

/-- Bytes at rising addresses from `base`. -/
structure Block where
  base : Nat
  bytes : List Byte
deriving DecidableEq, Repr

/-- The addresses of a block. -/
def Block.region (b : Block) : Region := ⟨b.base, b.bytes.length⟩

/-- Bytes as cells at rising addresses. -/
def cellsFrom (base : Nat) : List Byte → List Host.Cell
  | [] => []
  | b :: rest => (base, b) :: cellsFrom (base + 1) rest

/-- The cells of blocks, in the order they are listed. -/
def blocksCells (bs : List Block) : List Host.Cell := bs.flatMap fun b => cellsFrom b.base b.bytes

/-- The byte blocks give for an address: the last one listed for it, if there is one. DESIGN CHOICE,
log 29. -/
def blocksByte (bs : List Block) (a : Nat) : Option Byte := (blocksCells bs).reverse.lookup a

/-- The environment's choices (70_reset_and_hazards.md rule R221): the configuration, the program, the launch-state inputs. -/
structure Launch where
  /-- `ADMIT`. -/
  admitted : List Region
  /-- `CODE`. -/
  code : List Region
  /-- `ENTRY_PC`. -/
  entryPc : Word
  /-- The program: the bytes of `CODE`, as 20_memory.md rule R53 lays them out. -/
  program : List Block
  /-- The bytes of `ADMIT` outside `CODE`. -/
  inputs : List Block
  /-- `x[1] .. x[31]`; slot 0 is not used where r0 is zero. -/
  regs : Vector Word 32
  /-- `CY`, `OV`, `S`, `Z`, `SAT`. -/
  flags : Flags
deriving DecidableEq, Repr

/-- Why a launch is refused before it runs (93_implementation_defined.md U8, U12). Safe, log 29: the spec names a refusal for
the first three; the last two are the model's way of never supplying a default. -/
inductive LaunchRefusal where
  /-- `ENTRY_PC` is odd (70_reset_and_hazards.md rule R223 (a)). -/
  | oddEntry
  /-- `ENTRY_PC` or `ENTRY_PC + 1` is not in `CODE` (rule R223 (a)). -/
  | entryOutsideCode
  /-- `CODE` is not a subset of `ADMIT` (rule R223 (b)). -/
  | codeOutsideAdmit
  /-- The program gives no byte for an address of `CODE` (rule R223 (c)). -/
  | codeWithoutProgram
  /-- A byte of `ADMIT` outside `CODE` is not given (rule R221: "The model never supplies a default for any of them"). -/
  | inputNotGiven
deriving DecidableEq, Repr

/-- The bytes a launch writes: the inputs for the addresses of `ADMIT` outside `CODE`, the program for those of `CODE`; a byte
given for any other address is left out (10_state.md rule R38). DESIGN CHOICE, log 29. -/
def Launch.cells (l : Launch) : List Host.Cell :=
  ((blocksCells l.inputs).filter fun c => !regionsHave l.code c.1) ++
      ((blocksCells l.program).filter fun c => regionsHave l.code c.1)
    |>.filter fun c => regionsHave l.admitted c.1 && decide (c.1 < addressCount)

/-- The memory of a launch. -/
def Launch.memory (l : Launch) : Memory := Memory.writeCells [] l.cells

/-- The registers of a launch: `x[0] = 0` (70_reset_and_hazards.md rule R221). -/
def Launch.registers (l : Launch) : Vector Word 32 :=
  if Config.r0Zero then l.regs.set 0 0x00000000#32 else l.regs

/-- The launch state (70_reset_and_hazards.md rule R221). -/
def Launch.state (l : Launch) : State where
  regs := l.registers
  pc := l.entryPc
  flags := l.flags
  mem := l.memory
  admitted := l.admitted
  code := l.code
  faulted := none

/-- A launch whose checkable premises hold and that gives every byte of `ADMIT` begins in its launch state; another is refused
(70_reset_and_hazards.md rules R221, R223 (a) to (c)). What R223 (d) asks is checked by every access of the run. -/
def launch (l : Launch) : Except LaunchRefusal State :=
  if l.entryPc.getLsbD 0 then .error .oddEntry
  else if !(regionsHave l.code l.entryPc.toNat && regionsHave l.code (l.entryPc + 1#32).toNat) then
    .error .entryOutsideCode
  else if !regionsSubset l.code l.admitted then .error .codeOutsideAdmit
  else if !regionsSubset l.code (l.program.map Block.region) then .error .codeWithoutProgram
  else if !regionsSubset l.admitted (l.code ++ l.inputs.map Block.region) then .error .inputNotGiven
  else .ok l.state

end Sys2Proof.Machine
end

