-- ==== Sys2Proof/Safety.lean ====
section
/-! DEFINITION. What counts as a safe run, the end of a run, the invariant of the machine, and the words the statements
use to say what an instruction leaves unchanged. -/

namespace Sys2Proof.Machine

/-- The end of a run (70_reset_and_hazards.md rule R224): a state that is not faulted and that its step leaves as it is. -/
def State.Final (s : State) : Prop := s.faulted = none ∧ step s = .next s

/-- `n` steps from `s` lead to `t`, no one of them raising a fault. -/
def RunsTo (n : Nat) (s t : State) : Prop := Sys2Proof.core.run n s = .next t

/-- The run from `s` never raises a fault: what a claim that a program is safe says. -/
def State.Safe (s : State) : Prop := ∀ n, ∃ t, RunsTo n s t

/-- The run from `s` ends (70_reset_and_hazards.md rule R224): it reaches a final state, so it never faults. -/
def State.Ends (s : State) : Prop := ∃ n t, RunsTo n s t ∧ t.Final

/-- What holds of a launch state and is kept by every step. -/
structure State.Inv (s : State) : Prop where
  /-- The memory has its canonical form. -/
  mem_wf : Memory.wf s.mem
  /-- Only addresses in `ADMIT` hold bytes (10_state.md rule R38). -/
  mem_admitted : ∀ c ∈ s.mem, regionsHave s.admitted c.1 = true
  /-- Bit 0 of the `pc` is 0 (10_state.md rule R24). -/
  pc_even : s.pc.getLsbD 0 = false
  /-- The slot of r0 holds zero (10_state.md rules R22, R39). -/
  r0_zero : s.regs[0] = 0x00000000#32
  /-- `CODE` is a subset of `ADMIT` (20_memory.md rule R65). -/
  code_admitted : ∀ a, s.inCode a = true → s.inAdmit a = true

/-- No byte of memory has changed, and what a launch fixes is as before. -/
def MemorySame (s t : State) : Prop :=
  (∀ a : Word, t.byteAt a = s.byteAt a) ∧ t.admitted = s.admitted ∧ t.code = s.code ∧ t.faulted = s.faulted

/-- No register but `dest` has changed, and `dest` holds `v`; where `dest` is r0 the value is discarded and r0 still reads
as zero (10_state.md rules R20, R22). -/
def WritesOnly (s t : State) (dest : Reg) (v : Word) : Prop :=
  t.x dest = (if dest = 0 then 0x00000000#32 else v) ∧ ∀ r, r ≠ dest → t.x r = s.x r

/-- No register has changed. -/
def RegistersSame (s t : State) : Prop := ∀ r, t.x r = s.x r

/-- The state differs in nothing but the `pc`, which is `v`. -/
def OnlyPc (s t : State) (v : Word) : Prop :=
  RegistersSame s t ∧ t.flags = s.flags ∧ MemorySame s t ∧ t.pc = v

/-- The flags of a 32-bit addition (40_arithmetic.md rule R121), overflow said as "`s(a) + s(b)` is outside
`-2^31 .. 2^31 - 1`"; `SAT` is as before. -/
def AdditionFlags (s t : State) (a b : Word) : Prop :=
  (t.flags.cy = true ↔ 4294967296 ≤ a.toNat + b.toNat) ∧
    (t.flags.ov = true ↔ a.toInt + b.toInt < -2147483648 ∨ 2147483647 < a.toInt + b.toInt) ∧
    (t.flags.s = true ↔ (a + b).getLsbD 31 = true) ∧
    (t.flags.z = true ↔ a + b = 0x00000000#32) ∧ t.flags.sat = s.flags.sat

/-- The flags of the 32-bit subtraction `a - b` (40_arithmetic.md rule R122), overflow said as "`s(a) - s(b)` is outside
`-2^31 .. 2^31 - 1`"; `SAT` is as before. -/
def SubtractionFlags (s t : State) (a b : Word) : Prop :=
  (t.flags.cy = true ↔ a.toNat < b.toNat) ∧
    (t.flags.ov = true ↔ a.toInt - b.toInt < -2147483648 ∨ 2147483647 < a.toInt - b.toInt) ∧
    (t.flags.s = true ↔ (a - b).getLsbD 31 = true) ∧
    (t.flags.z = true ↔ a = b) ∧ t.flags.sat = s.flags.sat

/-- All four bytes of the word at `addr` are in `ADMIT` (20_memory.md rule R55). -/
def State.WordAdmitted (s : State) (addr : Word) : Prop := ∀ k, k < 4 → s.inAdmit (addr + BitVec.ofNat 32 k) = true

/-- No byte of the word at `addr` is in `CODE` (20_memory.md rule R56). -/
def State.WordOutsideCode (s : State) (addr : Word) : Prop :=
  ∀ k, k < 4 → s.inCode (addr + BitVec.ofNat 32 k) = false

/-- The instruction at the `pc` is an LD.W whose effective address is `addr`. -/
def State.FetchesLoad (s : State) (addr : Word) : Prop :=
  (∃ disp16 reg1 reg2, s.fetchInstr = .ok (.ldwDisp16 disp16 reg1 reg2) ∧
      addr = s.effectiveAddress reg1 (disp16Value disp16)) ∨
    ∃ disp23 reg1 reg3, s.fetchInstr = .ok (.ldwDisp23 disp23 reg1 reg3) ∧
      addr = s.effectiveAddress reg1 (disp23Value disp23)

/-- The instruction at the `pc` is an ST.W whose effective address is `addr`. -/
def State.FetchesStore (s : State) (addr : Word) : Prop :=
  (∃ disp16 reg1 reg2, s.fetchInstr = .ok (.stwDisp16 reg2 disp16 reg1) ∧
      addr = s.effectiveAddress reg1 (disp16Value disp16)) ∨
    ∃ disp23 reg1 reg3, s.fetchInstr = .ok (.stwDisp23 reg3 disp23 reg1) ∧
      addr = s.effectiveAddress reg1 (disp23Value disp23)

/-- The bytes stand in memory from `addr` upward, all of them in `CODE`. -/
def State.HoldsCode (s : State) (addr : Word) : List Byte → Prop
  | [] => True
  | b :: rest => s.inCode addr = true ∧ s.byteAt addr = b ∧ s.HoldsCode (addr + 1#32) rest

/-- No instruction of the spec stands whole in `CODE` at the `pc`. -/
def State.HoldsNoInstruction (s : State) : Prop :=
  ∀ i : Instr, i.wellFormed = true → ¬ s.HoldsCode s.pc (encodeBytes i)

end Sys2Proof.Machine

namespace Sys2Proof

open Machine

/-- The register an instruction writes, by the table of 10_state.md rule R23. -/
def Instr.writesReg : Instr → Option Reg
  | .addReg _ reg2 => some reg2
  | .addImm5 _ reg2 => some reg2
  | .addi _ _ reg2 => some reg2
  | .sub _ reg2 => some reg2
  | .movReg _ reg2 => some reg2
  | .movImm5 _ reg2 => some reg2
  | .movImm32 _ reg1 => some reg1
  | .jmpReg _ => none
  | .jmpDisp32 _ _ => none
  | .cmpReg _ _ => none
  | .cmpImm5 _ _ => none
  | .ldwDisp16 _ _ reg2 => some reg2
  | .ldwDisp23 _ _ reg3 => some reg3
  | .stwDisp16 _ _ _ => none
  | .stwDisp23 _ _ _ => none
  | .bv _ => none
  | .bl _ => none
  | .be _ => none
  | .bnh _ => none
  | .bn _ => none
  | .br _ => none
  | .blt _ => none
  | .ble _ => none
  | .bnv _ => none
  | .bnl _ => none
  | .bne _ => none
  | .bh _ => none
  | .bp _ => none
  | .bsa _ => none
  | .bge _ => none
  | .bgt _ => none

/-- The registers an instruction reads, by the table of 10_state.md rule R23. -/
def Instr.readsRegs : Instr → List Reg
  | .addReg reg1 reg2 => [reg1, reg2]
  | .addImm5 _ reg2 => [reg2]
  | .addi _ reg1 _ => [reg1]
  | .sub reg1 reg2 => [reg1, reg2]
  | .movReg reg1 _ => [reg1]
  | .movImm5 _ _ => []
  | .movImm32 _ _ => []
  | .jmpReg reg1 => [reg1]
  | .jmpDisp32 _ reg1 => [reg1]
  | .cmpReg reg1 reg2 => [reg1, reg2]
  | .cmpImm5 _ reg2 => [reg2]
  | .ldwDisp16 _ reg1 _ => [reg1]
  | .ldwDisp23 _ reg1 _ => [reg1]
  | .stwDisp16 reg2 _ reg1 => [reg1, reg2]
  | .stwDisp23 reg3 _ reg1 => [reg1, reg3]
  | .bv _ => []
  | .bl _ => []
  | .be _ => []
  | .bnh _ => []
  | .bn _ => []
  | .br _ => []
  | .blt _ => []
  | .ble _ => []
  | .bnv _ => []
  | .bnl _ => []
  | .bne _ => []
  | .bh _ => []
  | .bp _ => []
  | .bsa _ => []
  | .bge _ => []
  | .bgt _ => []

/-- JMP and Bcond (10_state.md rule R26). -/
def Instr.transfersControl : Instr → Bool
  | .addReg _ _ => false
  | .addImm5 _ _ => false
  | .addi _ _ _ => false
  | .sub _ _ => false
  | .movReg _ _ => false
  | .movImm5 _ _ => false
  | .movImm32 _ _ => false
  | .jmpReg _ => true
  | .jmpDisp32 _ _ => true
  | .cmpReg _ _ => false
  | .cmpImm5 _ _ => false
  | .ldwDisp16 _ _ _ => false
  | .ldwDisp23 _ _ _ => false
  | .stwDisp16 _ _ _ => false
  | .stwDisp23 _ _ _ => false
  | .bv _ => true
  | .bl _ => true
  | .be _ => true
  | .bnh _ => true
  | .bn _ => true
  | .br _ => true
  | .blt _ => true
  | .ble _ => true
  | .bnv _ => true
  | .bnl _ => true
  | .bne _ => true
  | .bh _ => true
  | .bp _ => true
  | .bsa _ => true
  | .bge _ => true
  | .bgt _ => true

/-- The two operands of the addition of ADD and ADDI (40_arithmetic.md rules R123 to R125). -/
def Instr.additionOf (s : State) : Instr → Option (Word × Word)
  | .addReg reg1 reg2 => some (s.x reg2, s.x reg1)
  | .addImm5 imm5 reg2 => some (s.x reg2, imm5.signExtend 32)
  | .addi imm16 reg1 _ => some (s.x reg1, imm16.signExtend 32)
  | .sub _ _ => none
  | .movReg _ _ => none
  | .movImm5 _ _ => none
  | .movImm32 _ _ => none
  | .jmpReg _ => none
  | .jmpDisp32 _ _ => none
  | .cmpReg _ _ => none
  | .cmpImm5 _ _ => none
  | .ldwDisp16 _ _ _ => none
  | .ldwDisp23 _ _ _ => none
  | .stwDisp16 _ _ _ => none
  | .stwDisp23 _ _ _ => none
  | .bv _ => none
  | .bl _ => none
  | .be _ => none
  | .bnh _ => none
  | .bn _ => none
  | .br _ => none
  | .blt _ => none
  | .ble _ => none
  | .bnv _ => none
  | .bnl _ => none
  | .bne _ => none
  | .bh _ => none
  | .bp _ => none
  | .bsa _ => none
  | .bge _ => none
  | .bgt _ => none

/-- The minuend and the subtrahend of SUB and CMP (40_arithmetic.md rules R126, R130, R131). -/
def Instr.subtractionOf (s : State) : Instr → Option (Word × Word)
  | .addReg _ _ => none
  | .addImm5 _ _ => none
  | .addi _ _ _ => none
  | .sub reg1 reg2 => some (s.x reg2, s.x reg1)
  | .movReg _ _ => none
  | .movImm5 _ _ => none
  | .movImm32 _ _ => none
  | .jmpReg _ => none
  | .jmpDisp32 _ _ => none
  | .cmpReg reg1 reg2 => some (s.x reg2, s.x reg1)
  | .cmpImm5 imm5 reg2 => some (s.x reg2, imm5.signExtend 32)
  | .ldwDisp16 _ _ _ => none
  | .ldwDisp23 _ _ _ => none
  | .stwDisp16 _ _ _ => none
  | .stwDisp23 _ _ _ => none
  | .bv _ => none
  | .bl _ => none
  | .be _ => none
  | .bnh _ => none
  | .bn _ => none
  | .br _ => none
  | .blt _ => none
  | .ble _ => none
  | .bnv _ => none
  | .bnl _ => none
  | .bne _ => none
  | .bh _ => none
  | .bp _ => none
  | .bsa _ => none
  | .bge _ => none
  | .bgt _ => none

end Sys2Proof
end

