-- ==== Sys2Proof/Certificates/Slice0/Obligations.lean ====
section
/-! DEFINITION. The statements for the provers. A rule is named as <file> R<n>; "log <n>" is notes/assumptions/<n>.md. The words
`WritesOnly`, `RegistersSame`, `MemorySame`, `OnlyPc`, `AdditionFlags`, `SubtractionFlags` are those of Sys2Proof/Safety.lean. -/

open Sys2Proof Sys2Proof.Machine

/-! ### Encoding and decoding -/

/-- Words written out in 95_test_vectors.md section 2.1, one at least for each family, decode to the instruction they stand
for. The byte order is log 8, the JMP and Bcond patterns are log 13 to 15. -/
def Obligations.SpecWordsDecode : Prop :=
  decodeBytes [0xC1, 0x11] = .ok (.addReg 1 2) [] ∧
  decodeBytes [0x5F, 0x52] = .ok (.addImm5 0b11111 10) [] ∧
  decodeBytes [0x05, 0x36, 0x00, 0x80] = .ok (.addi 0x8000 5 6) [] ∧
  decodeBytes [0xA6, 0x39] = .ok (.sub 6 7) [] ∧
  decodeBytes [0x01, 0x18] = .ok (.movReg 1 3) [] ∧
  decodeBytes [0x26, 0x06, 0x78, 0x56, 0x34, 0x12] = .ok (.movImm32 0x12345678 6) [] ∧
  decodeBytes [0x7F, 0x00] = .ok (.jmpReg 31) [] ∧
  decodeBytes [0xE5, 0x06, 0x26, 0x00, 0x00, 0x00] = .ok (.jmpDisp32 0x26 5) [] ∧
  decodeBytes [0x7F, 0x12] = .ok (.cmpImm5 0b11111 2) [] ∧
  decodeBytes [0xEA, 0xFD] = .ok (.bne (-4)) [] ∧
  decodeBytes [0x26, 0x47, 0xFD, 0xFF] = .ok (.ldwDisp16 0xFFFC 6 8) [] ∧
  decodeBytes [0x85, 0x07, 0x0F, 0x38, 0x00, 0x02] = .ok (.stwDisp23 7 0x10000 5) []

/-- Decoding the encoding of any well-formed instruction, whatever stands after it, gives the instruction back. -/
def Obligations.DecodeOfEncode : Prop :=
  ∀ (i : Instr) (rest : List Half), i.wellFormed = true → decode (encode i ++ rest) = .ok i rest

/-- Whatever the decoder reads an instruction from is that instruction's encoding, and the instruction is well formed: every
instruction has one encoding, and no bit is ignored. -/
def Obligations.EncodeOfDecode : Prop :=
  ∀ (hs : List Half) (i : Instr) (rest : List Half),
    decode hs = .ok i rest → i.wellFormed = true ∧ encode i ++ rest = hs

/-- The decision tree of 30_encoding.md R98 and the masks and matches of R97 agree on every 48 bits: the decoder reads an
instruction of a row exactly where the row is selected, and the row gives its length. So no two rows select the same bits.
The recovered patterns are log 13, 14, 15 and 27. -/
def Obligations.DecoderAgreesWithOpcodeMap : Prop :=
  ∀ (hw0 hw1 hw2 : Half) (e : Encoding),
    e.selects (hw2 ++ hw1 ++ hw0) = true ↔
      ∃ i rest, decode [hw0, hw1, hw2] = .ok i rest ∧ i.encoding = e ∧ 16 * (3 - rest.length) = e.row.lengthBits

/-- 30_encoding.md R80: the lengths, and that the first halfword decides them. -/
def Obligations.InstructionLengths : Prop :=
  ∀ (hw0 : Half) (hs hs' : List Half) (i i' : Instr) (rest rest' : List Half),
    decode (hw0 :: hs) = .ok i rest → decode (hw0 :: hs') = .ok i' rest' →
      i.lengthBytes = i'.lengthBytes ∧ 2 * (hw0 :: hs).length = i.lengthBytes + 2 * rest.length ∧
      (i.lengthBytes = 2 ↔ i.encoding ∈
        [.addReg, .addImm5, .sub, .movReg, .movImm5, .jmpReg, .cmpReg, .cmpImm5, .bcond]) ∧
      (i.lengthBytes = 4 ↔ i.encoding ∈ [.addi, .ldwDisp16, .stwDisp16]) ∧
      (i.lengthBytes = 6 ↔ i.encoding ∈ [.movImm32, .jmpDisp32, .ldwDisp23, .stwDisp23])

/-- 30_encoding.md R90, R91, R92: where the immediates stand in the instruction and which number each operand value is. -/
def Obligations.ImmediateOperandValues : Prop :=
  ∀ (hw0 hw1 hw2 : Half) (rest : List Half),
    (∀ imm5 r, (decode [hw0, hw1, hw2] = .ok (.addImm5 imm5 r) rest ∨ decode [hw0, hw1, hw2] = .ok (.movImm5 imm5 r) rest ∨
        decode [hw0, hw1, hw2] = .ok (.cmpImm5 imm5 r) rest) →
      imm5 = hw0.extractLsb' 0 5 ∧ (imm5Value imm5).toInt = imm5.toInt ∧
        -16 ≤ (imm5Value imm5).toInt ∧ (imm5Value imm5).toInt ≤ 15) ∧
    (∀ imm16 r1 r2, decode [hw0, hw1, hw2] = .ok (.addi imm16 r1 r2) rest →
      imm16 = hw1 ∧ (imm16Value imm16).toInt = imm16.toInt ∧
        -32768 ≤ (imm16Value imm16).toInt ∧ (imm16Value imm16).toInt ≤ 32767) ∧
    (∀ imm32 r, decode [hw0, hw1, hw2] = .ok (.movImm32 imm32 r) rest →
      (imm32Value imm32).toNat = hw2.toNat * 65536 + hw1.toNat)

/-- A displacement is the field bits with a 0 below them, extended with its sign, and lies in its range: 30_encoding.md
section 4 (the Bcond split is log 15, the bit 0 of disp16 is the spec's inference). -/
def Obligations.DisplacementOperandValues : Prop :=
  ∀ (hw0 hw1 hw2 : Half) (rest : List Half),
    (∀ c disp9, decode [hw0, hw1, hw2] = .ok (.branch c disp9) rest →
      disp9 = hw0.extractLsb' 11 5 ++ hw0.extractLsb' 4 3 ++ 0#1 ∧ (disp9Value disp9).toInt = disp9.toInt ∧
        -256 ≤ disp9.toInt ∧ disp9.toInt ≤ 254 ∧ disp9.toInt % 2 = 0) ∧
    (∀ disp16 r1 r2, (decode [hw0, hw1, hw2] = .ok (.ldwDisp16 disp16 r1 r2) rest ∨
        decode [hw0, hw1, hw2] = .ok (.stwDisp16 r2 disp16 r1) rest) →
      disp16 = hw1.extractLsb' 1 15 ++ 0#1 ∧ (disp16Value disp16).toInt = disp16.toInt ∧
        -32768 ≤ disp16.toInt ∧ disp16.toInt ≤ 32766 ∧ disp16.toInt % 2 = 0) ∧
    (∀ disp23 r1 r3, (decode [hw0, hw1, hw2] = .ok (.ldwDisp23 disp23 r1 r3) rest ∨
        decode [hw0, hw1, hw2] = .ok (.stwDisp23 r3 disp23 r1) rest) →
      disp23 = hw2 ++ hw1.extractLsb' 5 6 ++ 0#1 ∧ (disp23Value disp23).toInt = disp23.toInt ∧
        -4194304 ≤ disp23.toInt ∧ disp23.toInt ≤ 4194302 ∧ disp23.toInt % 2 = 0) ∧
    (∀ disp32 r1, decode [hw0, hw1, hw2] = .ok (.jmpDisp32 disp32 r1) rest →
      disp32 = hw2 ++ hw1.extractLsb' 1 15 ++ 0#1 ∧ disp32Value disp32 = disp32)

/-- The operand ranges of 30_encoding.md R105, which the spec marks as its own (log 32): an operand is accepted exactly in its
range, and then its field has its value. -/
def Obligations.AssemblerOperandRanges : Prop :=
  (∀ (z : Int) (v : BitVec 5), asmImm5 z = some v ↔ -16 ≤ z ∧ z ≤ 15 ∧ v.toInt = z) ∧
  (∀ (z : Int) (v : BitVec 16), asmImm16 z = some v ↔ -32768 ≤ z ∧ z ≤ 32767 ∧ v.toInt = z) ∧
  (∀ (z : Int) (v : BitVec 32), asmImm32 z = some v ↔
    -2147483648 ≤ z ∧ z ≤ 4294967295 ∧ (v.toInt = z ∨ (v.toNat : Int) = z)) ∧
  (∀ (z : Int) (v : BitVec 9), asmDisp9 z = some v ↔ -256 ≤ z ∧ z ≤ 254 ∧ z % 2 = 0 ∧ v.toInt = z) ∧
  (∀ (z : Int) (v : BitVec 16), asmDisp16 z = some v ↔ -32768 ≤ z ∧ z ≤ 32766 ∧ z % 2 = 0 ∧ v.toInt = z) ∧
  (∀ (z : Int) (v : BitVec 23), asmDisp23 z = some v ↔ -4194304 ≤ z ∧ z ≤ 4194302 ∧ z % 2 = 0 ∧ v.toInt = z) ∧
  (∀ (z : Int) (v : BitVec 32), asmDisp32 z = some v ↔
    -2147483648 ≤ z ∧ z ≤ 4294967294 ∧ z % 2 = 0 ∧ (v.toInt = z ∨ (v.toNat : Int) = z)) ∧
  (∀ (n : Nat) (r : Reg), asmReg n = some r ↔ n ≤ 31 ∧ r.val = n) ∧
  (∀ (n : Nat) (r : Reg), asmMovReg2 n = some r ↔ 1 ≤ n ∧ n ≤ 31 ∧ r.val = n)

/-! ### Fetch, decode and step -/

/-- A step at a state that is not faulted runs the instruction that the halfwords at the `pc` decode to; this machine adds
nothing around `exec`. -/
def Obligations.StepRunsDecodedInstruction : Prop :=
  ∀ (s : State) (i : Instr) (rest : List Half), s.faulted = none → i.wellFormed = true →
    decode (s.fetchWindow s.pc 3) = .ok i rest → step s = exec i s

/-- Where the bytes of a well-formed instruction stand in `CODE` from the `pc` upward, the step runs it, whatever stands
after them: it fetches no halfword it does not need. -/
def Obligations.StepRunsEncodedInstruction : Prop :=
  ∀ (s : State) (i : Instr), s.faulted = none → i.wellFormed = true → s.HoldsCode s.pc (encodeBytes i) → step s = exec i s

/-- A first halfword that selects no row of the opcode map with any later halfwords is a reserved encoding: the step faults
with the `pc` and the halfword, and fetches nothing more. The spec's decision D13, log 12. -/
def Obligations.ReservedFirstHalfwordFaults : Prop :=
  ∀ (s : State) (hw0 : Half), s.faulted = none → s.fetchHalfword s.pc = .ok hw0 →
    (∀ (e : Encoding) (hw1 hw2 : Half), e.selects (hw2 ++ hw1 ++ hw0) = false) →
      step s = .fault (.reservedInstruction s.pc hw0) ∧ s.afterStep = { s with faulted := some (.reservedInstruction s.pc hw0) }

/-- The encodings that would be MOV to r0 are reserved, the all-zero halfword with them: no move and no no-operation. The spec's
decision D14, log 12. -/
def Obligations.MovToR0IsReserved : Prop :=
  ∀ (s : State) (low : BitVec 5), s.faulted = none →
    (s.fetchHalfword s.pc = .ok (0b00000000000#11 ++ low) →
      step s = .fault (.reservedInstruction s.pc (0b00000000000#11 ++ low))) ∧
    (s.fetchHalfword s.pc = .ok (0b00000010000#11 ++ low) →
      step s = .fault (.reservedInstruction s.pc (0b00000010000#11 ++ low)))

/-- A fixed bit of a pattern with the wrong value makes the encoding reserved: `ins[15:11]` of JMP, MOV (3) and Format XIV,
`ins[16]` of JMP (2), LD.W (1) and ST.W (1), `ins[20:16]` of Format XIV. The spec's decision D33, log 12. -/
def Obligations.WrongFixedBitsAreReserved : Prop :=
  ∀ (s : State) (r2 : BitVec 5) (r1 : BitVec 5) (hw1 : Half), s.faulted = none →
    (∀ op ∈ [0b000011#6, 0b110001#6, 0b110111#6, 0b111100#6], r2 ≠ 0#5 → s.fetchHalfword s.pc = .ok (r2 ++ op ++ r1) →
      step s = .fault (.reservedInstruction s.pc (r2 ++ op ++ r1))) ∧
    (s.fetchHalfword s.pc = .ok (0#5 ++ 0b110111#6 ++ r1) → s.fetchHalfword (s.pc + 2#32) = .ok hw1 →
      hw1.getLsbD 0 = true → step s = .fault (.reservedInstruction s.pc (0#5 ++ 0b110111#6 ++ r1))) ∧
    (∀ op ∈ [0b111001#6, 0b111011#6], s.fetchHalfword s.pc = .ok (r2 ++ op ++ r1) →
      s.fetchHalfword (s.pc + 2#32) = .ok hw1 → hw1.getLsbD 0 = false →
        step s = .fault (.reservedInstruction s.pc (r2 ++ op ++ r1))) ∧
    (s.fetchHalfword s.pc = .ok (0#5 ++ 0b111100#6 ++ r1) → s.fetchHalfword (s.pc + 2#32) = .ok hw1 →
      hw1.extractLsb' 0 5 ≠ 0b01001#5 → hw1.extractLsb' 0 5 ≠ 0b01111#5 →
        step s = .fault (.reservedInstruction s.pc (0#5 ++ 0b111100#6 ++ r1)))

/-- A halfword is fetched exactly where both its bytes are in `CODE`, the byte at the even address in bits 7:0; otherwise the
fetch faults with the halfword's own address. The spec's decisions D7 and D12, log 8 and log 11. -/
def Obligations.FetchReadsOnlyCode : Prop :=
  ∀ (s : State) (a : Word),
    (s.inCode a = true → s.inCode (a + 1#32) = true → s.fetchHalfword a = .ok (s.byteAt (a + 1#32) ++ s.byteAt a)) ∧
    (s.inCode a = false ∨ s.inCode (a + 1#32) = false → s.fetchHalfword a = .error (.accessNotAdmitted s.pc a))

/-- The order of the tests of fetch and decode (60_exceptions.md R194, tests 1 to 5; the spec's decision D15, log 16): a later
halfword is fetched only after the earlier one has passed its test. -/
def Obligations.FetchAndDecodeFaultOrder : Prop :=
  ∀ (s : State), s.faulted = none →
    (∀ f, s.fetchHalfword s.pc = .error f → step s = .fault (.accessNotAdmitted s.pc s.pc)) ∧
    (∀ hw0, s.fetchHalfword s.pc = .ok hw0 →
      (headOf hw0 = none → step s = .fault (.reservedInstruction s.pc hw0)) ∧
      (∀ h, headOf hw0 = some h → 2 ≤ h.halfwords →
        (∀ f, s.fetchHalfword (s.pc + 2#32) = .error f → step s = .fault (.accessNotAdmitted s.pc (s.pc + 2#32))) ∧
        (∀ hw1, s.fetchHalfword (s.pc + 2#32) = .ok hw1 →
          (h.secondOk hw1 = false → step s = .fault (.reservedInstruction s.pc hw0)) ∧
          (h.secondOk hw1 = true → h.halfwords = 3 → ∀ f, s.fetchHalfword (s.pc + 4#32) = .error f →
            step s = .fault (.accessNotAdmitted s.pc (s.pc + 4#32))))))

/-- The faulted state (60_exceptions.md R192; the spec's decision D15, log 16): a step that faults writes the mark and nothing
else, a faulted state is not final, its step answers the fault again and its mark is not cleared. -/
def Obligations.FaultWritesOnlyTheMark : Prop :=
  ∀ (s : State) (f : Fault), step s = .fault f →
    s.afterStep = { s with faulted := some f } ∧ step s.afterStep = .fault f ∧ s.afterStep.afterStep = s.afterStep ∧
      ¬ s.Final ∧ ¬ s.afterStep.Final

/-- What a fault records (60_exceptions.md R190; the spec's decision D15, log 16): the `pc` of the instruction and, where no
instruction stands whole in `CODE` there, the first halfword, or the first halfword address that cannot be fetched; else the effective
address of the fetched LD.W or ST.W, which is no multiple of 4, or has a byte outside `ADMIT`, or, for a store, in `CODE`. -/
def Obligations.FaultRecordsItsCause : Prop :=
  ∀ (s : State) (f : Fault), s.faulted = none → step s = .fault f →
    match f with
    | .reservedInstruction pc hw0 => pc = s.pc ∧ s.fetchHalfword s.pc = .ok hw0 ∧ s.HoldsNoInstruction
    | .misalignedAccess pc addr => pc = s.pc ∧ addr.toNat % 4 ≠ 0 ∧ (s.FetchesLoad addr ∨ s.FetchesStore addr)
    | .accessNotAdmitted pc addr => pc = s.pc ∧
        ((s.HoldsNoInstruction ∧ ∃ k, k < 3 ∧ addr = s.pc + BitVec.ofNat 32 (2 * k) ∧
            (s.inCode addr = false ∨ s.inCode (addr + 1#32) = false) ∧
            ∀ j, j < k → ∃ h, s.fetchHalfword (s.pc + BitVec.ofNat 32 (2 * j)) = .ok h) ∨
          (addr.toNat % 4 = 0 ∧ s.FetchesLoad addr ∧ ¬ s.WordAdmitted addr) ∨
          (addr.toNat % 4 = 0 ∧ s.FetchesStore addr ∧ (¬ s.WordAdmitted addr ∨ ¬ s.WordOutsideCode addr)))

/-- No step is refused (60_exceptions.md R205, the spec's decision D15, log 16): every step answers a next state or a fault. -/
def Obligations.StepNeverRefuses : Prop := ∀ (s : State) (r : Refusal), step s ≠ .refused r

/-! ### Registers and flags -/

/-- r0 always reads as zero and a write to it has no effect on any state: PRESUMED, log 7 (10_state.md R22 takes it from general
knowledge). -/
def Obligations.RegisterZeroIsHardWired : Prop :=
  ∀ (s : State) (v : Word), s.x 0 = 0x00000000#32 ∧ s.setX 0 v = s

/-- No instruction writes a register other than the one the table of 10_state.md R23 lists for it. -/
def Obligations.OnlyListedRegisterWritten : Prop :=
  ∀ (i : Instr) (s t : State), exec i s = .next t → ∀ r, i.writesReg ≠ some r → t.x r = s.x r

/-- No instruction reads a register other than those the table of 10_state.md R23 lists for it: from two states that agree on
those and on everything but registers, it ends the same way, with the same fault, or with the same `pc`, flags and memory and the
same value in the register it writes. -/
def Obligations.OnlyListedRegistersRead : Prop :=
  ∀ (i : Instr) (s s' : State), s'.pc = s.pc → s'.flags = s.flags → s'.mem = s.mem → s'.admitted = s.admitted → s'.code = s.code →
    (∀ r ∈ i.readsRegs, s'.x r = s.x r) →
      (∀ f, exec i s = .fault f ↔ exec i s' = .fault f) ∧
      (∀ t, exec i s = .next t → ∃ t', exec i s' = .next t' ∧ t'.pc = t.pc ∧ t'.flags = t.flags ∧ t'.mem = t.mem ∧
        ∀ r, i.writesReg = some r → t'.x r = t.x r)

/-- 10_state.md R28 to R31 and R33: which instructions write CY, OV, S, Z and with what, that every other instruction leaves
all five flags as they are and none writes SAT, which conditions read which flag, and that none of the forms that write a flag sets
or clears it unconditionally. ADD, ADDI, SUB and CMP always complete. -/
def Obligations.FlagsWrittenAndRead : Prop :=
  (∀ (i : Instr) (s : State) (a b : Word), i.additionOf s = some (a, b) → ∃ t, exec i s = .next t ∧ AdditionFlags s t a b) ∧
  (∀ (i : Instr) (s : State) (a b : Word), i.subtractionOf s = some (a, b) →
    ∃ t, exec i s = .next t ∧ SubtractionFlags s t a b) ∧
  (∀ (i : Instr) (s t : State), i.additionOf s = none → i.subtractionOf s = none → exec i s = .next t → t.flags = s.flags) ∧
  (∀ (c : Cond), (∃ f : Flags, condHolds c { f with cy := !f.cy } ≠ condHolds c f) ↔ c ∈ [.l, .nl, .nh, .h]) ∧
  (∀ (c : Cond), (∃ f : Flags, condHolds c { f with ov := !f.ov } ≠ condHolds c f) ↔
    c ∈ [.v, .nv, .lt, .ge, .le, .gt]) ∧
  (∀ (c : Cond), (∃ f : Flags, condHolds c { f with s := !f.s } ≠ condHolds c f) ↔ c ∈ [.n, .p, .lt, .ge, .le, .gt]) ∧
  (∀ (c : Cond), (∃ f : Flags, condHolds c { f with z := !f.z } ≠ condHolds c f) ↔ c ∈ [.e, .ne, .nh, .h, .le, .gt]) ∧
  ∀ e ∈ [Encoding.addReg, .addImm5, .addi, .sub, .cmpReg, .cmpImm5], ∀ v : Bool,
    (∃ i s t, Instr.encoding i = e ∧ exec i s = .next t ∧ t.flags.cy = v) ∧
    (∃ i s t, Instr.encoding i = e ∧ exec i s = .next t ∧ t.flags.ov = v) ∧
    (∃ i s t, Instr.encoding i = e ∧ exec i s = .next t ∧ t.flags.s = v) ∧
    (∃ i s t, Instr.encoding i = e ∧ exec i s = .next t ∧ t.flags.z = v)

/-- SAT keeps its launch value for the whole run (10_state.md R32, the spec's decision D24, log 25). -/
def Obligations.SaturatedFlagNeverWritten : Prop :=
  ∀ (n : Nat) (s t : State), RunsTo n s t → t.flags.sat = s.flags.sat

/-! ### Arithmetic. The r0 clause of `WritesOnly` is PRESUMED (log 7); the advance of the `pc` is the spec's decision (log 19). -/

/-- ADD (1): reg2 plus reg1 into reg2, and the flags of the addition. -/
def Obligations.AddRegister : Prop :=
  ∀ (reg1 reg2 : Reg) (s : State), ∃ t, exec (.addReg reg1 reg2) s = .next t ∧
    WritesOnly s t reg2 (s.x reg2 + s.x reg1) ∧ AdditionFlags s t (s.x reg2) (s.x reg1) ∧
    t.pc = s.pc + 2#32 ∧ MemorySame s t

/-- ADD (2): reg2 plus the sign-extended imm5 into reg2, and the flags of the addition. -/
def Obligations.AddImmediate5 : Prop :=
  ∀ (imm5 : BitVec 5) (reg2 : Reg) (s : State), ∃ t, exec (.addImm5 imm5 reg2) s = .next t ∧
    WritesOnly s t reg2 (s.x reg2 + imm5.signExtend 32) ∧ AdditionFlags s t (s.x reg2) (imm5.signExtend 32) ∧
    t.pc = s.pc + 2#32 ∧ MemorySame s t

/-- ADDI: reg1 plus the sign-extended imm16 into reg2, and the flags of the addition. -/
def Obligations.AddImmediate16 : Prop :=
  ∀ (imm16 : BitVec 16) (reg1 reg2 : Reg) (s : State), ∃ t, exec (.addi imm16 reg1 reg2) s = .next t ∧
    WritesOnly s t reg2 (s.x reg1 + imm16.signExtend 32) ∧ AdditionFlags s t (s.x reg1) (imm16.signExtend 32) ∧
    t.pc = s.pc + 4#32 ∧ MemorySame s t

/-- SUB: reg2 minus reg1 into reg2, and the flags of the subtraction. -/
def Obligations.SubtractRegister : Prop :=
  ∀ (reg1 reg2 : Reg) (s : State), ∃ t, exec (.sub reg1 reg2) s = .next t ∧
    WritesOnly s t reg2 (s.x reg2 - s.x reg1) ∧ SubtractionFlags s t (s.x reg2) (s.x reg1) ∧
    t.pc = s.pc + 2#32 ∧ MemorySame s t

/-- MOV (1), (2) and (3): the destination receives reg1, the sign-extended imm5 or the imm32, and no flag changes. Where reg2 of
MOV (1) or MOV (2) is r0 the instruction has no encoding and no step runs it (30_encoding.md R100, statement MovToR0IsReserved): what
`exec` answers for such a term is the model's choice, log 28. -/
def Obligations.MoveCopiesOperand : Prop :=
  ∀ (reg1 reg2 : Reg) (imm5 : BitVec 5) (imm32 : BitVec 32) (s : State),
    (∃ t, exec (.movReg reg1 reg2) s = .next t ∧ WritesOnly s t reg2 (s.x reg1) ∧ t.flags = s.flags ∧
      t.pc = s.pc + 2#32 ∧ MemorySame s t) ∧
    (∃ t, exec (.movImm5 imm5 reg2) s = .next t ∧ WritesOnly s t reg2 (imm5.signExtend 32) ∧ t.flags = s.flags ∧
      t.pc = s.pc + 2#32 ∧ MemorySame s t) ∧
    (∃ t, exec (.movImm32 imm32 reg1) s = .next t ∧ WritesOnly s t reg1 imm32 ∧ t.flags = s.flags ∧
      t.pc = s.pc + 6#32 ∧ MemorySame s t)

/-- CMP (1): the flags of reg2 minus reg1; no register changes. -/
def Obligations.CompareRegister : Prop :=
  ∀ (reg1 reg2 : Reg) (s : State), ∃ t, exec (.cmpReg reg1 reg2) s = .next t ∧
    RegistersSame s t ∧ SubtractionFlags s t (s.x reg2) (s.x reg1) ∧ t.pc = s.pc + 2#32 ∧ MemorySame s t

/-- CMP (2): the flags of reg2 minus the sign-extended imm5; no register changes. -/
def Obligations.CompareImmediate5 : Prop :=
  ∀ (imm5 : BitVec 5) (reg2 : Reg) (s : State), ∃ t, exec (.cmpImm5 imm5 reg2) s = .next t ∧
    RegistersSame s t ∧ SubtractionFlags s t (s.x reg2) (imm5.signExtend 32) ∧ t.pc = s.pc + 2#32 ∧ MemorySame s t

/-! ### Control transfer. The patterns of JMP and Bcond are PRESUMED (log 13 to 15). -/

/-- 41_branch.md R150: the condition of each of the sixteen codes, and of each of the twenty-two mnemonics. -/
def Obligations.ConditionCodeTable : Prop :=
  (∀ f : Flags,
    (condHolds (.ofCode 0b0000) f = true ↔ f.ov = true) ∧
    (condHolds (.ofCode 0b0001) f = true ↔ f.cy = true) ∧
    (condHolds (.ofCode 0b0010) f = true ↔ f.z = true) ∧
    (condHolds (.ofCode 0b0011) f = true ↔ f.cy = true ∨ f.z = true) ∧
    (condHolds (.ofCode 0b0100) f = true ↔ f.s = true) ∧
    (condHolds (.ofCode 0b0101) f = true) ∧
    (condHolds (.ofCode 0b0110) f = true ↔ f.s ≠ f.ov) ∧
    (condHolds (.ofCode 0b0111) f = true ↔ f.s ≠ f.ov ∨ f.z = true) ∧
    (condHolds (.ofCode 0b1000) f = true ↔ f.ov = false) ∧
    (condHolds (.ofCode 0b1001) f = true ↔ f.cy = false) ∧
    (condHolds (.ofCode 0b1010) f = true ↔ f.z = false) ∧
    (condHolds (.ofCode 0b1011) f = true ↔ f.cy = false ∧ f.z = false) ∧
    (condHolds (.ofCode 0b1100) f = true ↔ f.s = false) ∧
    (condHolds (.ofCode 0b1101) f = true ↔ f.sat = true) ∧
    (condHolds (.ofCode 0b1110) f = true ↔ f.s = f.ov) ∧
    (condHolds (.ofCode 0b1111) f = true ↔ f.s = f.ov ∧ f.z = false)) ∧
  branchMnemonics =
    [("BGE", .ofCode 0b1110), ("BGT", .ofCode 0b1111), ("BLE", .ofCode 0b0111), ("BLT", .ofCode 0b0110),
      ("BH", .ofCode 0b1011), ("BL", .ofCode 0b0001), ("BNH", .ofCode 0b0011), ("BNL", .ofCode 0b1001),
      ("BE", .ofCode 0b0010), ("BNE", .ofCode 0b1010), ("BC", .ofCode 0b0001), ("BF", .ofCode 0b1010),
      ("BN", .ofCode 0b0100), ("BNC", .ofCode 0b1001), ("BNV", .ofCode 0b1000), ("BNZ", .ofCode 0b1010),
      ("BP", .ofCode 0b1100), ("BR", .ofCode 0b0101), ("BSA", .ofCode 0b1101), ("BT", .ofCode 0b0010),
      ("BV", .ofCode 0b0000), ("BZ", .ofCode 0b0010)]

/-- JMP (1) and (2): the `pc` becomes the register, or the register plus disp32 modulo 2^32, with bit 0 forced to 0; nothing
else changes and no return address is saved. -/
def Obligations.JumpTransfersControl : Prop :=
  ∀ (reg1 : Reg) (disp32 : BitVec 32) (s : State),
    (∃ t, exec (.jmpReg reg1) s = .next t ∧ OnlyPc s t t.pc ∧
      t.pc.getLsbD 0 = false ∧ ∀ k, 1 ≤ k → t.pc.getLsbD k = (s.x reg1).getLsbD k) ∧
    (∃ t, exec (.jmpDisp32 disp32 reg1) s = .next t ∧ OnlyPc s t t.pc ∧
      t.pc.getLsbD 0 = false ∧ ∀ k, 1 ≤ k → t.pc.getLsbD k = (s.x reg1 + disp32).getLsbD k)

/-- 10_state.md R25: what a control transfer writes to the `pc` is its target with bit 0 forced to 0; the target of a Bcond whose
displacement is even, at an even `pc`, is even, and the mask changes nothing. -/
def Obligations.ControlTransferClearsBitZero : Prop :=
  ∀ (reg1 : Reg) (disp32 : BitVec 32) (c : Cond) (disp9 : BitVec 9) (s : State),
    (∃ t, exec (.jmpReg reg1) s = .next t ∧ t.pc = s.x reg1 &&& 0xFFFFFFFE#32) ∧
    (∃ t, exec (.jmpDisp32 disp32 reg1) s = .next t ∧ t.pc = (s.x reg1 + disp32) &&& 0xFFFFFFFE#32) ∧
    (condHolds c s.flags = true → ∃ t, exec (.branch c disp9) s = .next t ∧
      t.pc = (s.pc + disp9.signExtend 32) &&& 0xFFFFFFFE#32 ∧
      (evenDisp disp9 = true → s.pc.getLsbD 0 = false → t.pc = s.pc + disp9.signExtend 32)) ∧
    ∀ k, (0xFFFFFFFE#32).getLsbD k = (decide (1 ≤ k) && decide (k < 32))

/-- BGE, BGT, BLE, BLT: taken on the signed conditions, to this instruction's own address plus the displacement, else to the next
instruction; nothing but the `pc` changes. -/
def Obligations.SignedBranches : Prop :=
  ∀ (disp9 : BitVec 9) (s : State), evenDisp disp9 = true → s.pc.getLsbD 0 = false →
    exec (.bge disp9) s = .next { s with
      pc := if s.flags.s = s.flags.ov then s.pc + disp9.signExtend 32 else s.pc + 2#32 } ∧
    exec (.bgt disp9) s = .next { s with
      pc := if s.flags.s = s.flags.ov ∧ s.flags.z = false then s.pc + disp9.signExtend 32 else s.pc + 2#32 } ∧
    exec (.ble disp9) s = .next { s with
      pc := if s.flags.s ≠ s.flags.ov ∨ s.flags.z = true then s.pc + disp9.signExtend 32 else s.pc + 2#32 } ∧
    exec (.blt disp9) s = .next { s with
      pc := if s.flags.s ≠ s.flags.ov then s.pc + disp9.signExtend 32 else s.pc + 2#32 }

/-- BH, BL (BC), BNH, BNL (BNC): as SignedBranches, on CY and Z. -/
def Obligations.UnsignedBranches : Prop :=
  ∀ (disp9 : BitVec 9) (s : State), evenDisp disp9 = true → s.pc.getLsbD 0 = false →
    exec (.bh disp9) s = .next { s with
      pc := if s.flags.cy = false ∧ s.flags.z = false then s.pc + disp9.signExtend 32 else s.pc + 2#32 } ∧
    exec (.bl disp9) s = .next { s with
      pc := if s.flags.cy = true then s.pc + disp9.signExtend 32 else s.pc + 2#32 } ∧
    exec (.bnh disp9) s = .next { s with
      pc := if s.flags.cy = true ∨ s.flags.z = true then s.pc + disp9.signExtend 32 else s.pc + 2#32 } ∧
    exec (.bnl disp9) s = .next { s with
      pc := if s.flags.cy = false then s.pc + disp9.signExtend 32 else s.pc + 2#32 }

/-- BE (BT, BZ), BNE (BF, BNZ), BN, BP, BV, BNV: as SignedBranches, on one flag. -/
def Obligations.SingleFlagBranches : Prop :=
  ∀ (disp9 : BitVec 9) (s : State), evenDisp disp9 = true → s.pc.getLsbD 0 = false →
    exec (.be disp9) s = .next { s with
      pc := if s.flags.z = true then s.pc + disp9.signExtend 32 else s.pc + 2#32 } ∧
    exec (.bne disp9) s = .next { s with
      pc := if s.flags.z = false then s.pc + disp9.signExtend 32 else s.pc + 2#32 } ∧
    exec (.bn disp9) s = .next { s with
      pc := if s.flags.s = true then s.pc + disp9.signExtend 32 else s.pc + 2#32 } ∧
    exec (.bp disp9) s = .next { s with
      pc := if s.flags.s = false then s.pc + disp9.signExtend 32 else s.pc + 2#32 } ∧
    exec (.bv disp9) s = .next { s with
      pc := if s.flags.ov = true then s.pc + disp9.signExtend 32 else s.pc + 2#32 } ∧
    exec (.bnv disp9) s = .next { s with
      pc := if s.flags.ov = false then s.pc + disp9.signExtend 32 else s.pc + 2#32 }

/-- BR is always taken, BSA is taken where SAT is 1. -/
def Obligations.AlwaysAndSaturatedBranches : Prop :=
  ∀ (disp9 : BitVec 9) (s : State), evenDisp disp9 = true → s.pc.getLsbD 0 = false →
    exec (.br disp9) s = .next { s with pc := s.pc + disp9.signExtend 32 } ∧
    exec (.bsa disp9) s = .next { s with
      pc := if s.flags.sat = true then s.pc + disp9.signExtend 32 else s.pc + 2#32 }

/-- After `CMP reg1, reg2` each branch named for a comparison is taken exactly where it holds of reg2 against reg1, signed or
unsigned as Table 5-5 names it, whatever SAT is. -/
def Obligations.CompareThenBranchDecidesOrder : Prop :=
  ∀ (reg1 reg2 : Reg) (disp9 : BitVec 9) (s t : State), evenDisp disp9 = true → s.pc.getLsbD 0 = false →
    exec (.cmpReg reg1 reg2) s = .next t →
      let goes (taken : Prop) [Decidable taken] (i : Instr) : Prop :=
        exec i t = .next { t with pc := if taken then s.pc + 2#32 + disp9.signExtend 32 else s.pc + 4#32 }
      goes ((s.x reg1).toInt ≤ (s.x reg2).toInt) (.bge disp9) ∧ goes ((s.x reg1).toInt < (s.x reg2).toInt) (.bgt disp9) ∧
      goes ((s.x reg2).toInt ≤ (s.x reg1).toInt) (.ble disp9) ∧ goes ((s.x reg2).toInt < (s.x reg1).toInt) (.blt disp9) ∧
      goes ((s.x reg1).toNat < (s.x reg2).toNat) (.bh disp9) ∧ goes ((s.x reg2).toNat < (s.x reg1).toNat) (.bl disp9) ∧
      goes ((s.x reg2).toNat ≤ (s.x reg1).toNat) (.bnh disp9) ∧ goes ((s.x reg1).toNat ≤ (s.x reg2).toNat) (.bnl disp9) ∧
      goes (s.x reg2 = s.x reg1) (.be disp9) ∧ goes (s.x reg2 ≠ s.x reg1) (.bne disp9)

/-- Every instruction but JMP and Bcond goes on at the byte after its last one (10_state.md R26, the spec's decision D5, log 19). -/
def Obligations.SequentialFlow : Prop :=
  ∀ (i : Instr) (s t : State), i.transfersControl = false → exec i s = .next t →
    t.pc = s.pc + BitVec.ofNat 32 i.lengthBytes

/-! ### Memory. The byte order is PRESUMED (log 8); the alignment fault and the two sets are the spec's decisions (log 9 to 11). -/

/-- LD.W (1) and (2) complete where the effective address is a multiple of 4 and its word is in `ADMIT`: the destination receives
the word, its lowest byte from the lowest address; no flag and no memory changes, and the base keeps its value unless it is the
destination. -/
def Obligations.LoadWord : Prop :=
  ∀ (disp16 : BitVec 16) (disp23 : BitVec 23) (reg1 dest : Reg) (s : State) (addr : Word),
    addr.toNat % 4 = 0 → s.WordAdmitted addr →
      let v := s.byteAt (addr + 3#32) ++ s.byteAt (addr + 2#32) ++ s.byteAt (addr + 1#32) ++ s.byteAt addr
      (addr = s.x reg1 + disp16.signExtend 32 → ∃ t, exec (.ldwDisp16 disp16 reg1 dest) s = .next t ∧
        WritesOnly s t dest v ∧ t.flags = s.flags ∧ t.pc = s.pc + 4#32 ∧ MemorySame s t) ∧
      (addr = s.x reg1 + disp23.signExtend 32 → ∃ t, exec (.ldwDisp23 disp23 reg1 dest) s = .next t ∧
        WritesOnly s t dest v ∧ t.flags = s.flags ∧ t.pc = s.pc + 6#32 ∧ MemorySame s t)

/-- ST.W (1) and (2) complete where the effective address is a multiple of 4 and its word is in `ADMIT` and outside `CODE`: the
four bytes of the word at that address are the register's, the lowest byte at the lowest address, every other byte of memory is
as before, and no register and no flag changes. The memory is in its canonical form. -/
def Obligations.StoreWord : Prop :=
  ∀ (disp16 : BitVec 16) (disp23 : BitVec 23) (reg1 src : Reg) (s : State) (addr : Word),
    Memory.wf s.mem → addr.toNat % 4 = 0 → s.WordAdmitted addr → s.WordOutsideCode addr →
      let stored (t : State) (len : Word) : Prop :=
        (∀ k, k < 4 → t.byteAt (addr + BitVec.ofNat 32 k) = (s.x src).extractLsb' (8 * k) 8) ∧
        (∀ a, (∀ k, k < 4 → a ≠ addr + BitVec.ofNat 32 k) → t.byteAt a = s.byteAt a) ∧
        RegistersSame s t ∧ t.flags = s.flags ∧ t.pc = s.pc + len ∧ t.admitted = s.admitted ∧ t.code = s.code ∧
        t.faulted = s.faulted
      (addr = s.effectiveAddress reg1 (disp16Value disp16) →
        ∃ t, exec (.stwDisp16 src disp16 reg1) s = .next t ∧ stored t 4#32) ∧
      (addr = s.effectiveAddress reg1 (disp23Value disp23) →
        ∃ t, exec (.stwDisp23 src disp23 reg1) s = .next t ∧ stored t 6#32)

/-- The effective address is base plus sign-extended displacement modulo 2^32 (20_memory.md R67, the spec's decision D29, log 21). -/
def Obligations.EffectiveAddressWraps : Prop :=
  ∀ (s : State) (reg1 : Reg) (disp16 : BitVec 16) (disp23 : BitVec 23),
    ((s.effectiveAddress reg1 (disp16Value disp16)).toNat : Int) = (((s.x reg1).toNat : Int) + disp16.toInt) % 4294967296 ∧
    ((s.effectiveAddress reg1 (disp23Value disp23)).toNat : Int) = (((s.x reg1).toNat : Int) + disp23.toInt) % 4294967296

/-- A word access at an address that is no multiple of 4 faults with that address, whatever the destination, and before the address
is looked up (20_memory.md R54, the spec's decision D8, log 9). -/
def Obligations.MisalignedWordFaults : Prop :=
  ∀ (disp16 : BitVec 16) (disp23 : BitVec 23) (reg1 r : Reg) (s : State) (addr : Word), addr.toNat % 4 ≠ 0 →
    (addr = s.effectiveAddress reg1 (disp16Value disp16) →
      exec (.ldwDisp16 disp16 reg1 r) s = .fault (.misalignedAccess s.pc addr) ∧
      exec (.stwDisp16 r disp16 reg1) s = .fault (.misalignedAccess s.pc addr)) ∧
    (addr = s.effectiveAddress reg1 (disp23Value disp23) →
      exec (.ldwDisp23 disp23 reg1 r) s = .fault (.misalignedAccess s.pc addr) ∧
      exec (.stwDisp23 r disp23 reg1) s = .fault (.misalignedAccess s.pc addr))

/-- An aligned word access with a byte outside `ADMIT` faults with its first address, and so does a store with a byte in `CODE`
(20_memory.md R51, R55, R56, R65, the spec's decisions D10 and D12, log 10 and log 11). -/
def Obligations.AccessOutsideAdmitFaults : Prop :=
  ∀ (disp16 : BitVec 16) (disp23 : BitVec 23) (reg1 r : Reg) (s : State) (addr : Word), addr.toNat % 4 = 0 →
    (¬ s.WordAdmitted addr →
      (addr = s.effectiveAddress reg1 (disp16Value disp16) →
        exec (.ldwDisp16 disp16 reg1 r) s = .fault (.accessNotAdmitted s.pc addr)) ∧
      (addr = s.effectiveAddress reg1 (disp23Value disp23) →
        exec (.ldwDisp23 disp23 reg1 r) s = .fault (.accessNotAdmitted s.pc addr))) ∧
    (¬ s.WordAdmitted addr ∨ ¬ s.WordOutsideCode addr →
      (addr = s.effectiveAddress reg1 (disp16Value disp16) →
        exec (.stwDisp16 r disp16 reg1) s = .fault (.accessNotAdmitted s.pc addr)) ∧
      (addr = s.effectiveAddress reg1 (disp23Value disp23) →
        exec (.stwDisp23 r disp23 reg1) s = .fault (.accessNotAdmitted s.pc addr)))

/-- A word that a store wrote is what the next load of that address reads, and a load of any other aligned word reads what it read
before the store (20_memory.md R62, the spec's decision D11, log 18). -/
def Obligations.LoadSeesLatestStore : Prop :=
  ∀ (s t : State) (addr other v : Word), Memory.wf s.mem → s.memWrite addr v = .ok t →
    t.memRead addr = .ok v ∧ (other ≠ addr → t.memRead other = s.memRead other)

/-! ### Whole runs -/

/-- The invariant of the machine is kept by every step, from every state that has it. -/
def Obligations.StepKeepsInvariant : Prop :=
  ∀ (s t : State), s.Inv → step s = .next t → t.Inv

/-- The state after reset has the invariant (its values are log 1 to 5). -/
def Obligations.ResetHasInvariant : Prop := State.reset.Inv

/-- Every launch that is not refused begins in a state with the invariant, and no fault. -/
def Obligations.LaunchHasInvariant : Prop :=
  ∀ (l : Launch) (s : State), launch l = .ok s → s.Inv ∧ s.faulted = none

/-- The bytes of `CODE` never change during a run and neither do the two sets, so every fetch sees the launch's program
(20_memory.md R65, the spec's decision D12, log 11). -/
def Obligations.CodeNeverChanges : Prop :=
  ∀ (n : Nat) (s t : State), s.Inv → RunsTo n s t →
    t.code = s.code ∧ t.admitted = s.admitted ∧ (∀ a, s.inCode a = true → t.byteAt a = s.byteAt a) ∧
      ∀ a h, t.fetchHalfword a = .ok h ↔ s.fetchHalfword a = .ok h

/-- A state is final exactly where its instruction is a Bcond with displacement 0 whose condition holds, or a JMP to itself
(70_reset_and_hazards.md R224, the spec's decision D19, log 31). -/
def Obligations.FinalStatesAreSelfBranches : Prop :=
  ∀ (s : State) (i : Instr), s.faulted = none → s.pc.getLsbD 0 = false → s.fetchInstr = .ok i →
    (s.Final ↔
      (∃ c, i = .branch c 0#9 ∧ condHolds c s.flags = true) ∨
      (∃ reg1, i = .jmpReg reg1 ∧ s.x reg1 &&& 0xFFFFFFFE#32 = s.pc) ∨
      (∃ disp32 reg1, i = .jmpDisp32 disp32 reg1 ∧ (s.x reg1 + disp32) &&& 0xFFFFFFFE#32 = s.pc))

/-! ### Reset, launch and the host's word -/

/-- The state after reset: `x[0] = 0` and no fault are the spec's (10_state.md R39, R41); the other registers, the flags, the `pc`,
the empty memory and the two sets are the model's choice, log 1 to 5. -/
def Obligations.ResetState : Prop :=
  State.reset.faulted = none ∧ (∀ r, State.reset.x r = 0x00000000#32) ∧ State.reset.pc = 0x00001000#32 ∧
    State.reset.flags = ⟨false, false, false, false, false⟩ ∧ State.reset.mem = [] ∧
    (∀ a, State.reset.inAdmit a = true) ∧ ∀ a, State.reset.inCode a = false

/-- A launch is accepted exactly where its checkable premises hold: an even entry whose two bytes are in `CODE`, `CODE` inside
`ADMIT`, a byte of the program for every address of `CODE`, and a byte for every other address of `ADMIT`
(70_reset_and_hazards.md R221, R223 (a) to (c), the spec's decision D18, log 29). Addresses are 32 bits (log 6). -/
def Obligations.LaunchChecksItsPremises : Prop :=
  ∀ (l : Launch), (∃ s, launch l = .ok s) ↔
    l.entryPc.toNat % 2 = 0 ∧ regionsHave l.code l.entryPc.toNat = true ∧
      regionsHave l.code (l.entryPc + 1#32).toNat = true ∧
      (∀ a : Word, regionsHave l.code a.toNat = true → regionsHave l.admitted a.toNat = true) ∧
      (∀ a : Word, regionsHave l.code a.toNat = true → ∃ b, blocksByte l.program a.toNat = some b) ∧
      ∀ a : Word, regionsHave l.admitted a.toNat = true → regionsHave l.code a.toNat = false →
        ∃ b, blocksByte l.inputs a.toNat = some b

/-- The launch state holds what the environment chose and no default (70_reset_and_hazards.md R221, the spec's decision D18, log 29):
the `pc`, the flags, the registers but r0, which is zero (log 7), in every address of `CODE` the program's byte and in every other
address of `ADMIT` the input's, the last one listed. -/
def Obligations.LaunchStateIsAsChosen : Prop :=
  ∀ (l : Launch) (s : State), launch l = .ok s →
    s.pc = l.entryPc ∧ s.flags = l.flags ∧ s.admitted = l.admitted ∧ s.code = l.code ∧ s.faulted = none ∧
    s.x 0 = 0x00000000#32 ∧ (∀ r : Reg, r ≠ 0 → s.x r = l.regs[r]) ∧
    (∀ a, s.inCode a = true → blocksByte l.program a.toNat = some (s.byteAt a)) ∧
    ∀ a, s.inAdmit a = true → s.inCode a = false → blocksByte l.inputs a.toNat = some (s.byteAt a)

/-- From the launch on, and along the whole run, a halfword is fetched exactly where both its addresses are in `CODE`, and it is the
program's two bytes there, the lower address in bits 7:0 (70_reset_and_hazards.md R223 (c), 20_memory.md R53, R65; the byte order is
log 8, the launch log 29, the set log 11). -/
def Obligations.FetchReadsTheProgram : Prop :=
  ∀ (l : Launch) (s t : State) (n : Nat), launch l = .ok s → RunsTo n s t → ∀ (a : Word) (h : Half),
    t.fetchHalfword a = .ok h ↔
      regionsHave l.code a.toNat = true ∧ regionsHave l.code (a + 1#32).toNat = true ∧
        ∃ lo hi, blocksByte l.program a.toNat = some lo ∧ blocksByte l.program (a + 1#32).toNat = some hi ∧ h = hi ++ lo

/-- Where the decoder reads an instruction from a word of the opcode table, the step at any state with that word loaded at its `pc`
runs it. The loading is the model's, log 5. -/
def Obligations.LoadedWordIsTheNextInstruction : Prop :=
  ∀ (s : State) (nbits w : Nat) (i : Instr), Memory.wf s.mem → decodeTableWord nbits w = some i →
    step (s.withFetchWord nbits w) = exec i (s.withFetchWord nbits w)
end

