-- ==== Sys2Proof/Laws/Bits.lean ====
section
/-! SUPPORT. The fields of an instruction, read back from the patterns they were put together in, and put together again. -/

namespace Sys2Proof

/-- A field inside the upper of two parts. -/
theorem extract_append_upper {a b : Nat} (x : BitVec a) (y : BitVec b) (k w : Nat) :
    (x ++ y).extractLsb' (b + k) w = x.extractLsb' k w := by
  ext i hi
  simp only [BitVec.getElem_extractLsb', BitVec.getLsbD_append]
  rw [if_neg (by omega)]
  congr 1; omega

/-- A field inside the lower of two parts. -/
theorem extract_append_lower {a b : Nat} (x : BitVec a) (y : BitVec b) (k w : Nat) (h : k + w ≤ b) :
    (x ++ y).extractLsb' k w = y.extractLsb' k w := by
  ext i hi
  simp only [BitVec.getElem_extractLsb', BitVec.getLsbD_append]
  rw [if_pos (by omega)]

/-- The whole of a value as a field. -/
theorem extract_all {w : Nat} (v : BitVec w) : v.extractLsb' 0 w = v := by
  ext i hi
  simp

/-- Two neighbouring fields are one field. -/
theorem append_extract {n : Nat} (v : BitVec n) (k a b : Nat) :
    v.extractLsb' (k + b) a ++ v.extractLsb' k b = v.extractLsb' k (a + b) := by
  ext i hi
  simp only [BitVec.getElem_append, BitVec.getElem_extractLsb']
  split
  · rfl
  · congr 1; omega

/-- A field of one bit. -/
theorem extract_one {n : Nat} (v : BitVec n) (k : Nat) : v.extractLsb' k 1 = BitVec.ofBool (v.getLsbD k) := by
  ext i hi
  have : i = 0 := by omega
  subst this
  simp [BitVec.getElem_extractLsb']

/-- The fields of a Format I or II halfword. -/
theorem fields_formatI (x : BitVec 5) (y : BitVec 6) (z : BitVec 5) :
    fieldOp6 (x ++ y ++ z) = y ∧ fieldReg2 (x ++ y ++ z) = x ∧ fieldReg1 (x ++ y ++ z) = z ∧
      fieldImm5 (x ++ y ++ z) = z ∧ fieldOp4 (x ++ y ++ z) = y.extractLsb' 2 4 := by
  refine ⟨?_, ?_, ?_, ?_, ?_⟩
  · exact (extract_append_upper (x ++ y) z 0 6).trans ((extract_append_lower x y 0 6 (by omega)).trans (extract_all y))
  · exact (extract_append_upper (x ++ y) z 6 5).trans ((extract_append_upper x y 0 5).trans (extract_all x))
  · exact (extract_append_lower (x ++ y) z 0 5 (by omega)).trans (extract_all z)
  · exact (extract_append_lower (x ++ y) z 0 5 (by omega)).trans (extract_all z)
  · exact (extract_append_upper (x ++ y) z 2 4).trans (extract_append_lower x y 2 4 (by omega))

/-- The fields of a Format III halfword. -/
theorem fields_formatIII (x : BitVec 5) (y : BitVec 4) (w : BitVec 3) (z : BitVec 4) :
    fieldOp4 (x ++ y ++ w ++ z) = y ∧ fieldCond (x ++ y ++ w ++ z) = z ∧ fieldDisp9 (x ++ y ++ w ++ z) = x ++ w ++ 0#1 := by
  refine ⟨?_, ?_, ?_⟩
  · exact (extract_append_upper (x ++ y ++ w) z 3 4).trans ((extract_append_upper (x ++ y) w 0 4).trans
      ((extract_append_lower x y 0 4 (by omega)).trans (extract_all y)))
  · exact (extract_append_lower (x ++ y ++ w) z 0 4 (by omega)).trans (extract_all z)
  · have h1 : (x ++ y ++ w ++ z).extractLsb' 11 5 = x :=
      (extract_append_upper (x ++ y ++ w) z 7 5).trans ((extract_append_upper (x ++ y) w 4 5).trans
        ((extract_append_upper x y 0 5).trans (extract_all x)))
    have h2 : (x ++ y ++ w ++ z).extractLsb' 4 3 = w :=
      (extract_append_upper (x ++ y ++ w) z 0 3).trans ((extract_append_lower (x ++ y) w 0 3 (by omega)).trans
        (extract_all w))
    exact congrArg₂ (fun p q => p ++ q ++ 0#1) h1 h2

/-- A Format I or II halfword is its three fields. -/
theorem join_formatI (h : Half) : fieldReg2 h ++ fieldOp6 h ++ fieldReg1 h = h :=
  (congrArg (· ++ fieldReg1 h) (append_extract h 5 5 6)).trans ((append_extract h 0 11 5).trans (extract_all h))

/-- A Format III halfword is its four fields. -/
theorem join_formatIII (h : Half) : h.extractLsb' 11 5 ++ fieldOp4 h ++ h.extractLsb' 4 3 ++ fieldCond h = h :=
  (congrArg (fun p => p ++ h.extractLsb' 4 3 ++ fieldCond h) (append_extract h 7 5 4)).trans
    ((congrArg (· ++ fieldCond h) (append_extract h 4 9 3)).trans ((append_extract h 0 12 4).trans (extract_all h)))

theorem regOfField_fieldOfReg (r : Reg) : regOfField (fieldOfReg r) = r := rfl
theorem fieldOfReg_regOfField (f : BitVec 5) : fieldOfReg (regOfField f) = f := rfl

/-- The bytes of a halfword are put together to the halfword. -/
theorem halfOfBytes_bytes (h : Half) : halfOfBytes (lowerByte h) (upperByte h) = h :=
  (append_extract h 0 8 8).trans (extract_all h)

/-- The bytes of halfwords are put together to the halfwords. -/
theorem halvesOfBytes_bytesOfHalves (hs : List Half) : halvesOfBytes (bytesOfHalves hs) = hs := by
  induction hs with
  | nil => rfl
  | cons h rest ih =>
    show halfOfBytes (lowerByte h) (upperByte h) :: halvesOfBytes (bytesOfHalves rest) = h :: rest
    rw [halfOfBytes_bytes, ih]

/-- An even displacement is what stands above its bit 0, and a 0. -/
theorem even_split {n : Nat} (d : BitVec (n + 1)) (h : evenDisp d = true) : d.extractLsb' 1 n ++ 0#1 = d := by
  have h0 : d.extractLsb' 0 1 = 0#1 := by
    rw [extract_one]; unfold evenDisp at h; rw [Bool.not_eq_true'] at h; rw [h]; rfl
  rw [← h0]
  exact (append_extract d 0 n 1).trans (extract_all d)

/-- What stands above a 0 is an even displacement. -/
theorem even_append {n : Nat} (x : BitVec n) : evenDisp (x ++ 0#1) = true := by
  unfold evenDisp
  rw [BitVec.getLsbD_append]
  rfl

end Sys2Proof
end

