-- ==== Sys2Proof/Laws/Decode.lean ====
section
/-! SUPPORT. Everything decoding can answer: which first halfwords select a row, and what an instruction is read from. -/

namespace Sys2Proof

/-- What decoding answers where it answers an instruction: the first halfword's row, its fixed bits checked, and its length taken
from the list. -/
theorem decode_ok {hs rest : List Half} {i : Instr} : decode hs = .ok i rest ↔
    ∃ hw0 h, headOf hw0 = some h ∧
      ((h.halfwords = 1 ∧ hs = hw0 :: rest ∧ i = h.build hw0 0#16 0#16) ∨
       (h.halfwords = 2 ∧ ∃ hw1, hs = hw0 :: hw1 :: rest ∧ h.secondOk hw1 = true ∧ i = h.build hw0 hw1 0#16) ∨
       (h.halfwords = 3 ∧ ∃ hw1 hw2, hs = hw0 :: hw1 :: hw2 :: rest ∧ h.secondOk hw1 = true ∧ i = h.build hw0 hw1 hw2)) := by
  constructor
  · intro h
    unfold decode at h
    split at h
    · cases h
    · rename_i hw0 tl
      split at h
      · cases h
      · rename_i hd hh
        refine ⟨hw0, hd, hh, ?_⟩
        split at h
        · cases h; exact .inl ⟨‹_›, rfl, rfl⟩
        · split at h
          · cases h
          · rename_i hw1 tl1
            split at h
            · cases h
            · rename_i hs2
              split at h
              · cases h; exact .inr (.inl ⟨‹_›, hw1, rfl, by simpa using hs2, rfl⟩)
              · split at h
                · cases h
                · rename_i hw2 _
                  cases h
                  refine .inr (.inr ⟨?_, hw1, hw2, rfl, by simpa using hs2, rfl⟩)
                  cases hd <;> simp_all [Head.halfwords]
  · rintro ⟨hw0, h, hh, ⟨hl, rfl, rfl⟩ | ⟨hl, hw1, rfl, h2, rfl⟩ | ⟨hl, hw1, hw2, rfl, h2, rfl⟩⟩ <;>
      simp [decode, *]

/-- The fixed bits of the first halfword (reg2, six-bit opcode), row by row; Bcond by its four-bit opcode. -/
def headBits (h : Head) (op4 : BitVec 4) (op : BitVec 6) (r2 : BitVec 5) : Prop :=
  match h with
  | .bcond => op4 = 0b1011#4
  | .movReg => op = 0b000000#6 ∧ r2 ≠ 0#5
  | .jmpReg => op = 0b000011#6 ∧ r2 = 0#5
  | .sub => op = 0b001101#6
  | .addReg => op = 0b001110#6
  | .cmpReg => op = 0b001111#6
  | .movImm5 => op = 0b010000#6 ∧ r2 ≠ 0#5
  | .addImm5 => op = 0b010010#6
  | .cmpImm5 => op = 0b010011#6
  | .addi => op = 0b110000#6
  | .movImm32 => op = 0b110001#6 ∧ r2 = 0#5
  | .jmpDisp32 => op = 0b110111#6 ∧ r2 = 0#5
  | .ldwDisp16 => op = 0b111001#6
  | .stwDisp16 => op = 0b111011#6
  | .formatXIV => op = 0b111100#6 ∧ r2 = 0#5

/-- The four-bit opcode is the upper part of the six-bit opcode. -/
theorem op4_of_op6 (hw0 : Half) : fieldOp4 hw0 = (fieldOp6 hw0).extractLsb' 2 4 := by
  unfold fieldOp4 fieldOp6; ext i hi
  simp only [BitVec.getElem_extractLsb', BitVec.getLsbD_extractLsb']
  rw [decide_eq_true (by omega : 2 + i < 6), Bool.true_and]
  congr 1; omega

/-- The first halfword selects a row exactly where it has the row's fixed bits. -/
theorem headOf_iff {hw0 : Half} {h : Head} :
    headOf hw0 = some h ↔ headBits h (fieldOp4 hw0) (fieldOp6 hw0) (fieldReg2 hw0) := by
  rw [op4_of_op6]
  unfold headOf
  rw [op4_of_op6]
  generalize fieldOp6 hw0 = op
  generalize fieldReg2 hw0 = r2
  by_cases hr : r2 = 0#5
  · simp only [hr, if_true]
    cases h <;> simp only [headBits] <;> revert op <;> decide
  · simp only [hr, if_false]
    cases h <;> simp only [headBits, hr, ne_eq, not_false_eq_true, and_true, and_false] <;> revert op <;> decide
/-- A row that an instruction selects agrees with the row's match on the first halfword. -/
theorem selects_first {e : Encoding} {hw0 hw1 hw2 : Half} (h : e.selects (hw2 ++ hw1 ++ hw0) = true) :
    hw0 &&& e.row.mask.extractLsb' 0 16 = e.row.pattern.extractLsb' 0 16 ∧
      (e.row.reg2NotZero = true → fieldReg2 hw0 ≠ 0#5) := by
  unfold Encoding.selects at h
  rw [Bool.and_eq_true, beq_iff_eq, Bool.or_eq_true, Bool.not_eq_true', bne_iff_ne] at h
  have e1 : (hw2 ++ hw1 ++ hw0).extractLsb' 0 16 = hw0 :=
    (extract_append_lower (hw2 ++ hw1) hw0 0 16 (by omega)).trans (extract_all hw0)
  have e2 : (hw2 ++ hw1 ++ hw0).extractLsb' 11 5 = fieldReg2 hw0 :=
    extract_append_lower (hw2 ++ hw1) hw0 11 5 (by omega)
  constructor
  · rw [← h.1, BitVec.extractLsb'_and, e1]
  · intro hr
    rw [hr] at h
    rw [← e2]
    exact h.2.resolve_left Bool.noConfusion

end Sys2Proof
end

