-- ==== Sys2Proof/Laws/State.lean ====
section
/-! SUPPORT. One lemma per field per update of State, and what the accessors read after each update. -/

namespace Sys2Proof.Machine

@[simp] theorem r0Zero_eq : Config.r0Zero = true := rfl
@[simp] theorem endian_eq : Config.endian = .little := rfl
@[simp] theorem misalignedWord_eq : Config.misalignedWord = .fault := rfl

section Updates

variable (s : State)

@[simp] theorem setPc_regs (v : Word) : (s.setPc v).regs = s.regs := rfl
@[simp] theorem setPc_pc (v : Word) : (s.setPc v).pc = v := rfl
@[simp] theorem setPc_flags (v : Word) : (s.setPc v).flags = s.flags := rfl
@[simp] theorem setPc_mem (v : Word) : (s.setPc v).mem = s.mem := rfl
@[simp] theorem setPc_admitted (v : Word) : (s.setPc v).admitted = s.admitted := rfl
@[simp] theorem setPc_code (v : Word) : (s.setPc v).code = s.code := rfl
@[simp] theorem setPc_faulted (v : Word) : (s.setPc v).faulted = s.faulted := rfl

@[simp] theorem setFlags_regs (f : Flags) : (s.setFlags f).regs = s.regs := rfl
@[simp] theorem setFlags_pc (f : Flags) : (s.setFlags f).pc = s.pc := rfl
@[simp] theorem setFlags_flags (f : Flags) : (s.setFlags f).flags = f := rfl
@[simp] theorem setFlags_mem (f : Flags) : (s.setFlags f).mem = s.mem := rfl
@[simp] theorem setFlags_admitted (f : Flags) : (s.setFlags f).admitted = s.admitted := rfl
@[simp] theorem setFlags_code (f : Flags) : (s.setFlags f).code = s.code := rfl
@[simp] theorem setFlags_faulted (f : Flags) : (s.setFlags f).faulted = s.faulted := rfl

@[simp] theorem setMem_regs (m : Memory) : (s.setMem m).regs = s.regs := rfl
@[simp] theorem setMem_pc (m : Memory) : (s.setMem m).pc = s.pc := rfl
@[simp] theorem setMem_flags (m : Memory) : (s.setMem m).flags = s.flags := rfl
@[simp] theorem setMem_mem (m : Memory) : (s.setMem m).mem = m := rfl
@[simp] theorem setMem_admitted (m : Memory) : (s.setMem m).admitted = s.admitted := rfl
@[simp] theorem setMem_code (m : Memory) : (s.setMem m).code = s.code := rfl
@[simp] theorem setMem_faulted (m : Memory) : (s.setMem m).faulted = s.faulted := rfl

@[simp] theorem setFaulted_regs (f : Fault) : (s.setFaulted f).regs = s.regs := rfl
@[simp] theorem setFaulted_pc (f : Fault) : (s.setFaulted f).pc = s.pc := rfl
@[simp] theorem setFaulted_flags (f : Fault) : (s.setFaulted f).flags = s.flags := rfl
@[simp] theorem setFaulted_mem (f : Fault) : (s.setFaulted f).mem = s.mem := rfl
@[simp] theorem setFaulted_admitted (f : Fault) : (s.setFaulted f).admitted = s.admitted := rfl
@[simp] theorem setFaulted_code (f : Fault) : (s.setFaulted f).code = s.code := rfl
@[simp] theorem setFaulted_faulted (f : Fault) : (s.setFaulted f).faulted = some f := rfl

@[simp] theorem advance_regs (n : Word) : (s.advance n).regs = s.regs := rfl
@[simp] theorem advance_pc (n : Word) : (s.advance n).pc = s.pc + n := rfl
@[simp] theorem advance_flags (n : Word) : (s.advance n).flags = s.flags := rfl
@[simp] theorem advance_mem (n : Word) : (s.advance n).mem = s.mem := rfl
@[simp] theorem advance_admitted (n : Word) : (s.advance n).admitted = s.admitted := rfl
@[simp] theorem advance_code (n : Word) : (s.advance n).code = s.code := rfl
@[simp] theorem advance_faulted (n : Word) : (s.advance n).faulted = s.faulted := rfl

@[simp] theorem jump_regs (t : Word) : (s.jump t).regs = s.regs := rfl
@[simp] theorem jump_pc (t : Word) : (s.jump t).pc = t &&& 0xFFFFFFFE#32 := rfl
@[simp] theorem jump_flags (t : Word) : (s.jump t).flags = s.flags := rfl
@[simp] theorem jump_mem (t : Word) : (s.jump t).mem = s.mem := rfl
@[simp] theorem jump_admitted (t : Word) : (s.jump t).admitted = s.admitted := rfl
@[simp] theorem jump_code (t : Word) : (s.jump t).code = s.code := rfl
@[simp] theorem jump_faulted (t : Word) : (s.jump t).faulted = s.faulted := rfl

@[simp] theorem writeArith_regs (r : ArithResult) : (s.writeArith r).regs = s.regs := rfl
@[simp] theorem writeArith_pc (r : ArithResult) : (s.writeArith r).pc = s.pc := rfl
@[simp] theorem writeArith_flags (r : ArithResult) : (s.writeArith r).flags = s.flags.writeArith r := rfl
@[simp] theorem writeArith_mem (r : ArithResult) : (s.writeArith r).mem = s.mem := rfl
@[simp] theorem writeArith_admitted (r : ArithResult) : (s.writeArith r).admitted = s.admitted := rfl
@[simp] theorem writeArith_code (r : ArithResult) : (s.writeArith r).code = s.code := rfl
@[simp] theorem writeArith_faulted (r : ArithResult) : (s.writeArith r).faulted = s.faulted := rfl

@[simp] theorem setX_pc (i : Reg) (v : Word) : (s.setX i v).pc = s.pc := by unfold State.setX; split <;> rfl
@[simp] theorem setX_flags (i : Reg) (v : Word) : (s.setX i v).flags = s.flags := by unfold State.setX; split <;> rfl
@[simp] theorem setX_mem (i : Reg) (v : Word) : (s.setX i v).mem = s.mem := by unfold State.setX; split <;> rfl
@[simp] theorem setX_admitted (i : Reg) (v : Word) : (s.setX i v).admitted = s.admitted := by unfold State.setX; split <;> rfl
@[simp] theorem setX_code (i : Reg) (v : Word) : (s.setX i v).code = s.code := by unfold State.setX; split <;> rfl
@[simp] theorem setX_faulted (i : Reg) (v : Word) : (s.setX i v).faulted = s.faulted := by
  unfold State.setX; split <;> rfl

@[simp] theorem writeArith_cy (f : Flags) (r : ArithResult) : (f.writeArith r).cy = r.cy := rfl
@[simp] theorem writeArith_ov (f : Flags) (r : ArithResult) : (f.writeArith r).ov = r.ov := rfl
@[simp] theorem writeArith_s (f : Flags) (r : ArithResult) : (f.writeArith r).s = r.s := rfl
@[simp] theorem writeArith_z (f : Flags) (r : ArithResult) : (f.writeArith r).z = r.z := rfl
@[simp] theorem writeArith_sat (f : Flags) (r : ArithResult) : (f.writeArith r).sat = f.sat := rfl

end Updates

/-! Reading a register depends on the registers alone, a byte on memory alone, the two sets on their fields alone. -/

theorem x_congr {s t : State} (h : t.regs = s.regs) (r : Reg) : t.x r = s.x r := by unfold State.x; rw [h]

theorem byteAt_congr {s t : State} (h : t.mem = s.mem) (a : Word) : t.byteAt a = s.byteAt a := by
  unfold State.byteAt; rw [h]

theorem inAdmit_congr {s t : State} (h : t.admitted = s.admitted) (a : Word) : t.inAdmit a = s.inAdmit a := by
  unfold State.inAdmit; rw [h]

theorem inCode_congr {s t : State} (h : t.code = s.code) (a : Word) : t.inCode a = s.inCode a := by
  unfold State.inCode; rw [h]

@[simp] theorem setPc_x (s : State) (v : Word) (r : Reg) : (s.setPc v).x r = s.x r := rfl
@[simp] theorem advance_x (s : State) (n : Word) (r : Reg) : (s.advance n).x r = s.x r := rfl
@[simp] theorem jump_x (s : State) (t : Word) (r : Reg) : (s.jump t).x r = s.x r := rfl
@[simp] theorem setFlags_x (s : State) (f : Flags) (r : Reg) : (s.setFlags f).x r = s.x r := rfl
@[simp] theorem writeArith_x (s : State) (a : ArithResult) (r : Reg) : (s.writeArith a).x r = s.x r := rfl
@[simp] theorem setMem_x (s : State) (m : Memory) (r : Reg) : (s.setMem m).x r = s.x r := rfl
@[simp] theorem setFaulted_x (s : State) (f : Fault) (r : Reg) : (s.setFaulted f).x r = s.x r := rfl

/-- What a register reads after a write to the same register: r0 discards it. -/
theorem setX_x_same (s : State) (i : Reg) (v : Word) : (s.setX i v).x i = if i = 0 then 0#32 else v := by
  by_cases h : i = 0
  · simp [State.x, h]
  · simp [State.x, State.setX, h]

/-- A write to one register leaves every other as it was. -/
theorem setX_x_ne (s : State) {i r : Reg} (h : r ≠ i) (v : Word) : (s.setX i v).x r = s.x r := by
  by_cases hi : i = 0
  · simp [State.setX, hi]
  · have hne : (i : Nat) ≠ r := fun e => h (Fin.ext e.symm)
    simp only [State.x, State.setX, r0Zero_eq, Bool.true_and, beq_iff_eq, hi, if_false]
    split
    · rfl
    · exact Vector.getElem_set_ne _ _ hne

/-- The slot of r0 after a register write is as before. -/
theorem setX_slot0 (s : State) (i : Reg) (v : Word) : (s.setX i v).regs[0] = s.regs[0] := by
  by_cases hi : i = 0
  · simp [State.setX, hi]
  · have hne : (i : Nat) ≠ 0 := fun e => hi (Fin.ext e)
    simp only [State.setX, r0Zero_eq, Bool.true_and, beq_iff_eq, hi, if_false]
    exact Vector.getElem_set_ne _ _ hne

end Sys2Proof.Machine
end

