-- ==== Sys2Proof/Laws/Flags.lean ====
section
/-! SUPPORT. What the flag computations say, field by field. -/

namespace Sys2Proof.Machine

/-- The result of an addition is the sum modulo 2^32. -/
theorem addFlags_r (a b : Word) : (addFlags a b).r = a + b := by
  apply BitVec.eq_of_toNat_eq; simp [addFlags, BitVec.toNat_add]

theorem addFlags_cy (a b : Word) : (addFlags a b).cy = decide (4294967296 ≤ a.toNat + b.toNat) := rfl

theorem addFlags_ov (a b : Word) : (addFlags a b).ov = (a.msb == b.msb && (a + b).msb != a.msb) := by
  rw [← addFlags_r a b]; rfl

theorem addFlags_s (a b : Word) : (addFlags a b).s = (a + b).msb := by rw [← addFlags_r a b]; rfl

theorem addFlags_z (a b : Word) : (addFlags a b).z = (a + b == 0#32) := by rw [← addFlags_r a b]; rfl

theorem subFlags_r (a b : Word) : (subFlags a b).r = a - b := rfl
theorem subFlags_cy (a b : Word) : (subFlags a b).cy = decide (a.toNat < b.toNat) := rfl
theorem subFlags_ov (a b : Word) : (subFlags a b).ov = (a.msb != b.msb && (a - b).msb != a.msb) := rfl
theorem subFlags_s (a b : Word) : (subFlags a b).s = (a - b).msb := rfl
theorem subFlags_z (a b : Word) : (subFlags a b).z = (a - b == 0#32) := rfl

end Sys2Proof.Machine
end

