-- ==== Sys2Proof/Laws/Memory.lean ====
section
/-! SUPPORT. Memory: reading after a write, and the canonical form, which every memory operation keeps. -/

namespace Sys2Proof.Machine

theorem read_cons (a : Nat) (b : Byte) (m : Memory) (h : ∀ c ∈ m, a < c.1) (x : Nat) :
    Memory.read (Memory.cons a b m) x = if x = a then b else Memory.read m x := by
  unfold Memory.cons
  split
  · rename_i hb
    split
    · subst hb; rename_i hx; subst hx
      induction m with
      | nil => rfl
      | cons c rest ih =>
        have := h c (by simp)
        simp only [Memory.read]
        rw [if_neg (by omega)]
        exact ih fun d hd => h d (by simp [hd])
    · rfl
  · simp [Memory.read]

/-- What a byte reads after a write: the written byte at its address, the old one everywhere else. -/
theorem read_write (m : Memory) (hm : List.Pairwise (fun c d : Host.Cell => c.1 < d.1) m) (a : Nat) (b : Byte)
    (x : Nat) : Memory.read (Memory.write m a b) x = if x = a then b else Memory.read m x := by
  induction m with
  | nil => simp [Memory.write, read_cons a b [] (by simp)]
  | cons c rest ih =>
    obtain ⟨a', b'⟩ := c
    rw [List.pairwise_cons] at hm
    simp only [Memory.write]
    split
    · rename_i h
      rw [read_cons]
      intro d hd
      rcases List.mem_cons.mp hd with rfl | hd
      · exact h
      · exact lt_trans h (hm.1 d hd)
    · split
      · rename_i h1 h; subst h
        rw [read_cons _ _ _ hm.1]
        by_cases hx : x = a <;> simp [Memory.read, hx]
      · rename_i h1 h2
        simp only [Memory.read, ih hm.2]
        by_cases hx : x = a'
        · subst hx; simp [Ne.symm h2]
        · simp [hx]

theorem mem_cons_sub {a : Nat} {b : Byte} {m : Memory} {c : Host.Cell} (h : c ∈ Memory.cons a b m) :
    (c = (a, b) ∧ b ≠ Memory.unlisted) ∨ c ∈ m := by
  unfold Memory.cons at h
  split at h
  · exact .inr h
  · rcases List.mem_cons.mp h with h | h
    · exact .inl ⟨h, ‹_›⟩
    · exact .inr h

/-- A cell of memory after a write is the written cell or one that was there. -/
theorem mem_write {m : Memory} {a : Nat} {b : Byte} {c : Host.Cell} (h : c ∈ Memory.write m a b) :
    (c = (a, b) ∧ b ≠ Memory.unlisted) ∨ c ∈ m := by
  induction m with
  | nil => exact mem_cons_sub h
  | cons d rest ih =>
    obtain ⟨a', b'⟩ := d
    simp only [Memory.write] at h
    split at h
    · exact mem_cons_sub h
    · split at h
      · rcases mem_cons_sub h with h | h
        · exact .inl h
        · exact .inr (by simp [h])
      · rcases List.mem_cons.mp h with h | h
        · exact .inr (by simp [h])
        · rcases ih h with h | h
          · exact .inl h
          · exact .inr (by simp [h])

theorem pairwise_cons {a : Nat} {b : Byte} {m : Memory} (h : ∀ c ∈ m, a < c.1)
    (hm : List.Pairwise (fun c d : Host.Cell => c.1 < d.1) m) :
    List.Pairwise (fun c d : Host.Cell => c.1 < d.1) (Memory.cons a b m) := by
  unfold Memory.cons
  split
  · exact hm
  · exact List.pairwise_cons.mpr ⟨fun c hc => h c hc, hm⟩

theorem pairwise_write {m : Memory} (hm : List.Pairwise (fun c d : Host.Cell => c.1 < d.1) m) (a : Nat) (b : Byte) :
    List.Pairwise (fun c d : Host.Cell => c.1 < d.1) (Memory.write m a b) := by
  induction m with
  | nil => exact pairwise_cons (by simp) hm
  | cons c rest ih =>
    obtain ⟨a', b'⟩ := c
    have hm' := List.pairwise_cons.mp hm
    simp only [Memory.write]
    split
    · rename_i h
      refine pairwise_cons (fun d hd => ?_) hm
      rcases List.mem_cons.mp hd with rfl | hd
      · exact h
      · exact lt_trans h (hm'.1 d hd)
    · split
      · rename_i _ h; subst h
        exact pairwise_cons hm'.1 hm'.2
      · rename_i h1 h2
        refine List.pairwise_cons.mpr ⟨fun d hd => ?_, ih hm'.2⟩
        rcases mem_write hd with ⟨rfl, _⟩ | hd
        · exact Nat.lt_of_le_of_ne (Nat.le_of_not_lt h1) (Ne.symm h2)
        · exact hm'.1 d hd

/-- Writing a byte below 2^32 keeps the canonical form. -/
theorem write_wf {m : Memory} (hm : Memory.wf m) {a : Nat} (ha : a < addressCount) (b : Byte) :
    Memory.wf (Memory.write m a b) := by
  refine ⟨pairwise_write hm.1 a b, fun c hc => ?_⟩
  rcases mem_write hc with ⟨rfl, hb⟩ | hc
  · exact ⟨hb, ha⟩
  · exact hm.2 c hc

/-- An address computed in 32 bits is below 2^32. -/
theorem toNat_lt_addressCount (a : Word) : a.toNat < addressCount := a.isLt

/-- Writing a word keeps the canonical form. -/
theorem writeWord_wf {m : Memory} (hm : Memory.wf m) (addr v : Word) : Memory.wf (Memory.writeWord m addr v) :=
  write_wf (write_wf (write_wf (write_wf hm (toNat_lt_addressCount _) _) (toNat_lt_addressCount _) _)
    (toNat_lt_addressCount _) _) (toNat_lt_addressCount _) _

/-- Writing cells keeps the canonical form. -/
theorem writeCells_wf {cells : List Host.Cell} (h : ∀ c ∈ cells, c.1 < addressCount) {m : Memory} (hm : Memory.wf m) :
    Memory.wf (m.writeCells cells) := by
  induction cells generalizing m with
  | nil => exact hm
  | cons c rest ih => exact ih (fun d hd => h d (by simp [hd])) (write_wf hm (h c (by simp)) c.2)

/-- A cell of memory after cells are written is one of them or one that was there. -/
theorem mem_writeCells {cells : List Host.Cell} {m : Memory} {c : Host.Cell} (h : c ∈ m.writeCells cells) :
    c ∈ cells ∨ c ∈ m := by
  induction cells generalizing m with
  | nil => exact .inr h
  | cons d rest ih =>
    rcases ih h with h | h
    · exact .inl (by simp [h])
    · rcases mem_write h with ⟨rfl, _⟩ | h
      · exact .inl (by simp)
      · exact .inr h

/-- What a byte reads after cells are written: the last one for its address, the old byte where there is none. -/
theorem read_writeCells {cells : List Host.Cell} {m : Memory} (hm : List.Pairwise (fun c d : Host.Cell => c.1 < d.1) m)
    (a : Nat) : Memory.read (m.writeCells cells) a = (cells.reverse.lookup a).getD (Memory.read m a) := by
  induction cells generalizing m with
  | nil => rfl
  | cons c rest ih =>
    show Memory.read ((m.write c.1 c.2).writeCells rest) a = _
    rw [ih (pairwise_write hm c.1 c.2), read_write m hm, List.reverse_cons, List.lookup_append]
    by_cases ha : a = c.1
    · subst ha
      cases rest.reverse.lookup c.1 <;> simp [List.lookup]
    · have : (a == c.1) = false := by simpa using ha
      cases rest.reverse.lookup a <;> simp [List.lookup, this, ha]

/-- Placing code keeps the canonical form. -/
theorem placeCode_wf (bs : List Byte) : ∀ (s : State), Memory.wf s.mem → ∀ addr, Memory.wf (s.placeCode addr bs).mem := by
  induction bs with
  | nil => intro s h _; exact h
  | cons b rest ih => intro s h addr; exact ih _ (write_wf h (toNat_lt_addressCount addr) b) _

theorem reset_mem_wf : Memory.wf State.reset.mem := ⟨List.Pairwise.nil, by simp [State.reset]⟩

/-- What a byte reads after a word is written: the word's bytes at its four addresses, the old byte everywhere else. -/
theorem read_writeWord {m : Memory} (hm : List.Pairwise (fun c d : Host.Cell => c.1 < d.1) m) (addr v a : Word) :
    Memory.read (Memory.writeWord m addr v) a.toNat =
      if a = addr + 3#32 then byteOfWord v 3 else if a = addr + 2#32 then byteOfWord v 2
      else if a = addr + 1#32 then byteOfWord v 1 else if a = addr then byteOfWord v 0
      else Memory.read m a.toNat := by
  unfold Memory.writeWord
  have h1 := pairwise_write hm addr.toNat (byteOfWord v 0)
  have h2 := pairwise_write h1 (addr + 1#32).toNat (byteOfWord v 1)
  have h3 := pairwise_write h2 (addr + 2#32).toNat (byteOfWord v 2)
  rw [read_write _ h3, read_write _ h2, read_write _ h1, read_write _ hm]
  simp only [BitVec.toNat_inj]

end Sys2Proof.Machine
end

