-- ==== Sys2Proof/Laws/Ops.lean ====
section
/-! SUPPORT. For each shared operation one lemma that says once everything it can do. -/

namespace Sys2Proof.Machine

variable {s t : State} {f : Fault}

/-! ### Regions -/

theorem regionsHave_iff {rs : List Region} {a : Nat} :
    regionsHave rs a = true ↔ ∃ r ∈ rs, r.base ≤ a ∧ a < r.base + r.size := by
  simp [regionsHave, Region.has]

/-- The test of a launch decides inclusion, of the 2^32 addresses there are. -/
theorem regionsSubset_iff {inner outer : List Region} :
    regionsSubset inner outer = true ↔ ∀ a, a < addressCount → regionsHave inner a = true → regionsHave outer a = true := by
  constructor
  · intro h a
    have key : ∀ p, (∃ r ∈ inner, r.base = p) ∨ (∃ r ∈ outer, r.base + r.size = p) → p < addressCount →
        regionsHave inner p = true → regionsHave outer p = true := by
      intro p hp hlt hin
      have := List.all_eq_true.mp h p (by
        rcases hp with ⟨r, hr, rfl⟩ | ⟨r, hr, rfl⟩
        · exact List.mem_append_left _ (List.mem_map.mpr ⟨r, hr, rfl⟩)
        · exact List.mem_append_right _ (List.mem_map.mpr ⟨r, hr, rfl⟩))
      simpa [hin, Nat.not_le.mpr hlt] using this
    induction a with
    | zero =>
      intro hlt hin
      obtain ⟨r, hr, h1, h2⟩ := regionsHave_iff.mp hin
      exact key 0 (.inl ⟨r, hr, by omega⟩) hlt hin
    | succ a ih =>
      intro hlt hin
      obtain ⟨r, hr, h1, h2⟩ := regionsHave_iff.mp hin
      by_cases hb : r.base = a + 1
      · exact key (a + 1) (.inl ⟨r, hr, hb⟩) hlt hin
      · obtain ⟨q, hq, g1, g2⟩ :=
          regionsHave_iff.mp (ih (by omega) (regionsHave_iff.mpr ⟨r, hr, by omega, by omega⟩))
        by_cases he : q.base + q.size = a + 1
        · exact key (a + 1) (.inr ⟨q, hq, he⟩) hlt hin
        · exact regionsHave_iff.mpr ⟨q, hq, by omega, by omega⟩
  · intro h
    refine List.all_eq_true.mpr fun a _ => ?_
    by_cases hlt : a < addressCount
    · by_cases hin : regionsHave inner a = true
      · simp [hin, h a hlt hin]
      · simp [hin]
    · simp [Nat.not_lt.mp hlt]

/-- The test of a launch decides inclusion, said of 32-bit addresses. -/
theorem regionsSubset_iff_word {inner outer : List Region} : regionsSubset inner outer = true ↔
    ∀ a : Word, regionsHave inner a.toNat = true → regionsHave outer a.toNat = true := by
  rw [regionsSubset_iff]
  refine ⟨fun h a => h a.toNat a.isLt, fun h a ha hin => ?_⟩
  have e : (BitVec.ofNat 32 a).toNat = a := by rw [BitVec.toNat_ofNat]; exact Nat.mod_eq_of_lt ha
  have := h (BitVec.ofNat 32 a)
  rw [e] at this
  exact this hin

/-! ### Memory access -/

theorem alignmentFault_eq (s : State) (addr : Word) :
    s.alignmentFault addr = if aligned addr then none else some (.misalignedAccess s.pc addr) := rfl

/-- A read that completes: aligned, in `ADMIT`, the four bytes. -/
theorem memRead_ok {addr v : Word} : s.memRead addr = .ok v ↔
    aligned addr = true ∧ (wordAddrs addr).all s.inAdmit = true ∧
      v = wordOfBytes (s.byteAt addr) (s.byteAt (addr + 1#32)) (s.byteAt (addr + 2#32)) (s.byteAt (addr + 3#32)) := by
  unfold State.memRead
  rw [alignmentFault_eq]
  by_cases ha : aligned addr = true <;> by_cases hb : (wordAddrs addr).all s.inAdmit = true <;> simp [ha, hb, eq_comm]

/-- A read that faults: misaligned, else outside `ADMIT`. -/
theorem memRead_error {addr : Word} : s.memRead addr = .error f ↔
    (aligned addr = false ∧ f = .misalignedAccess s.pc addr) ∨
      (aligned addr = true ∧ (wordAddrs addr).all s.inAdmit = false ∧ f = .accessNotAdmitted s.pc addr) := by
  unfold State.memRead
  rw [alignmentFault_eq]
  by_cases ha : aligned addr = true <;> by_cases hb : (wordAddrs addr).all s.inAdmit = true <;> simp [ha, hb, eq_comm]

/-- A write that completes: aligned, in `ADMIT`, outside `CODE`, and the four bytes written. -/
theorem memWrite_ok {addr v : Word} : s.memWrite addr v = .ok t ↔
    aligned addr = true ∧ (wordAddrs addr).all s.inAdmit = true ∧
      (wordAddrs addr).all (fun a => !s.inCode a) = true ∧ t = s.setMem (s.mem.writeWord addr v) := by
  unfold State.memWrite
  rw [alignmentFault_eq]
  by_cases ha : aligned addr = true <;> by_cases hb : (wordAddrs addr).all s.inAdmit = true <;>
    by_cases hc : (wordAddrs addr).all (fun a => !s.inCode a) = true <;> simp [ha, hb, hc, eq_comm]

/-- A write that faults: misaligned, else outside `ADMIT` or inside `CODE`. -/
theorem memWrite_error {addr v : Word} : s.memWrite addr v = .error f ↔
    (aligned addr = false ∧ f = .misalignedAccess s.pc addr) ∨
      (aligned addr = true ∧ ((wordAddrs addr).all s.inAdmit && (wordAddrs addr).all (fun a => !s.inCode a)) = false ∧
        f = .accessNotAdmitted s.pc addr) := by
  unfold State.memWrite
  rw [alignmentFault_eq]
  by_cases ha : aligned addr = true <;>
    by_cases hb : ((wordAddrs addr).all s.inAdmit && (wordAddrs addr).all (fun a => !s.inCode a)) = true <;>
      simp [ha, hb, eq_comm]

/-- A halfword that is fetched: both bytes in `CODE`. -/
theorem fetchHalfword_ok {addr : Word} {h : Half} : s.fetchHalfword addr = .ok h ↔
    (s.inCode addr && s.inCode (addr + 1#32)) = true ∧ h = halfOfBytes (s.byteAt addr) (s.byteAt (addr + 1#32)) := by
  unfold State.fetchHalfword
  split <;> rename_i hc <;> simp [hc, eq_comm]

/-- A halfword that cannot be fetched: a byte of it outside `CODE`. -/
theorem fetchHalfword_error {addr : Word} : s.fetchHalfword addr = .error f ↔
    (s.inCode addr && s.inCode (addr + 1#32)) = false ∧ f = .accessNotAdmitted s.pc addr := by
  unfold State.fetchHalfword
  split <;> rename_i hc <;> simp [hc, eq_comm]

/-! ### Whole effects -/

/-- A load completes exactly where its read does. -/
theorem finishLoad_next {addr len : Word} {dest : Reg} : finishLoad s addr dest len = .next t ↔
    ∃ v, s.memRead addr = .ok v ∧ t = (s.setX dest v).advance len := by
  unfold finishLoad
  cases s.memRead addr <;> simp [raise, eq_comm]

/-- A load faults exactly where its read does. -/
theorem finishLoad_fault {addr len : Word} {dest : Reg} : finishLoad s addr dest len = .fault f ↔
    s.memRead addr = .error f := by
  unfold finishLoad
  cases s.memRead addr <;> simp [raise]

/-- A store completes exactly where its write does. -/
theorem finishStore_next {addr len : Word} {src : Reg} : finishStore s addr src len = .next t ↔
    ∃ u, s.memWrite addr (s.x src) = .ok u ∧ t = u.advance len := by
  unfold finishStore
  cases s.memWrite addr (s.x src) <;> simp [raise, eq_comm]

/-- A store faults exactly where its write does. -/
theorem finishStore_fault {addr len : Word} {src : Reg} : finishStore s addr src len = .fault f ↔
    s.memWrite addr (s.x src) = .error f := by
  unfold finishStore
  cases s.memWrite addr (s.x src) <;> simp [raise]

/-- A branch always completes: at its target or at the next instruction. -/
theorem branchOn_next {c : Cond} {d : BitVec 9} : branchOn s c d = .next t ↔
    t = if condHolds c s.flags then s.jump (s.pc + disp9Value d) else s.advance 2#32 := by
  unfold branchOn
  split <;> simp [eq_comm]

theorem finishArith_next {dest : Reg} {r : ArithResult} {len : Word} : finishArith s dest r len = .next t ↔
    t = ((s.setX dest r.r).writeArith r).advance len := by simp [finishArith, eq_comm]

theorem finishCompare_next {r : ArithResult} {len : Word} : finishCompare s r len = .next t ↔
    t = (s.writeArith r).advance len := by simp [finishCompare, eq_comm]

theorem finishMove_next {dest : Reg} {v len : Word} : finishMove s dest v len = .next t ↔
    t = (s.setX dest v).advance len := by simp [finishMove, eq_comm]

/-! ### The step -/

/-- The four kinds of effect an instruction can have on registers, flags and memory; each also writes the `pc`. -/
inductive Effect (s t : State) : Prop where
  /-- A register and no flag, or no register at all where `dest` is r0. -/
  | move (dest : Reg) (v p : Word) (h : t = (s.setX dest v).setPc p)
  /-- A register and the four arithmetic flags. -/
  | arith (dest : Reg) (r : ArithResult) (p : Word) (h : t = ((s.setX dest r.r).writeArith r).setPc p)
  /-- The four arithmetic flags alone. -/
  | compare (r : ArithResult) (p : Word) (h : t = (s.writeArith r).setPc p)
  /-- The `pc` alone. -/
  | transfer (p : Word) (h : t = s.setPc p)
  /-- A word of memory. -/
  | store (addr v p : Word) (u : State) (hw : s.memWrite addr v = .ok u) (h : t = u.setPc p)

theorem effect_branch {c : Cond} {d : BitVec 9} (h : branchOn s c d = .next t) : Effect s t := by
  rw [branchOn_next] at h
  split at h
  · exact .transfer _ h
  · exact .transfer _ h

theorem effect_load {addr len : Word} {dest : Reg} (h : finishLoad s addr dest len = .next t) : Effect s t := by
  obtain ⟨v, _, rfl⟩ := finishLoad_next.mp h
  exact .move dest v _ rfl

theorem effect_store {addr len : Word} {src : Reg} (h : finishStore s addr src len = .next t) : Effect s t := by
  obtain ⟨u, hw, rfl⟩ := finishStore_next.mp h
  exact .store addr _ _ u hw rfl

/-- What an instruction can do. -/
theorem exec_effect {i : Instr} (h : exec i s = .next t) : Effect s t := by
  cases i with
  | addReg _ _ => exact .arith _ _ _ (finishArith_next.mp h)
  | addImm5 _ _ => exact .arith _ _ _ (finishArith_next.mp h)
  | addi _ _ _ => exact .arith _ _ _ (finishArith_next.mp h)
  | sub _ _ => exact .arith _ _ _ (finishArith_next.mp h)
  | movReg _ _ => exact .move _ _ _ (finishMove_next.mp h)
  | movImm5 _ _ => exact .move _ _ _ (finishMove_next.mp h)
  | movImm32 _ _ => exact .move _ _ _ (finishMove_next.mp h)
  | jmpReg _ => exact .transfer _ (Host.Outcome.next.inj h).symm
  | jmpDisp32 _ _ => exact .transfer _ (Host.Outcome.next.inj h).symm
  | cmpReg _ _ => exact .compare _ _ (finishCompare_next.mp h)
  | cmpImm5 _ _ => exact .compare _ _ (finishCompare_next.mp h)
  | ldwDisp16 _ _ _ => exact effect_load h
  | ldwDisp23 _ _ _ => exact effect_load h
  | stwDisp16 _ _ _ => exact effect_store h
  | stwDisp23 _ _ _ => exact effect_store h
  | bv _ => exact effect_branch h
  | bl _ => exact effect_branch h
  | be _ => exact effect_branch h
  | bnh _ => exact effect_branch h
  | bn _ => exact effect_branch h
  | br _ => exact effect_branch (c := .always) h
  | blt _ => exact effect_branch h
  | ble _ => exact effect_branch h
  | bnv _ => exact effect_branch h
  | bnl _ => exact effect_branch h
  | bne _ => exact effect_branch h
  | bh _ => exact effect_branch h
  | bp _ => exact effect_branch h
  | bsa _ => exact effect_branch h
  | bge _ => exact effect_branch h
  | bgt _ => exact effect_branch h

/-- A step that answers a next state: no mark, an instruction fetched, and its effect. -/
theorem step_next : step s = .next t ↔ s.faulted = none ∧ ∃ i, s.fetchInstr = .ok i ∧ exec i s = .next t := by
  unfold step
  cases hf : s.faulted with
  | some f => simp [raise]
  | none => cases hi : s.fetchInstr <;> simp [raise]

/-- A step that faults: the mark is set already, or fetch and decode fault, or the instruction does. -/
theorem step_fault : step s = .fault f ↔ s.faulted = some f ∨
    (s.faulted = none ∧ (s.fetchInstr = .error f ∨ ∃ i, s.fetchInstr = .ok i ∧ exec i s = .fault f)) := by
  unfold step
  cases hf : s.faulted with
  | some f => simp [raise]
  | none => cases hi : s.fetchInstr <;> simp [raise]

/-- What a step can do. -/
theorem step_effect (h : step s = .next t) : Effect s t := by
  obtain ⟨_, i, _, hi⟩ := step_next.mp h
  exact exec_effect hi

end Sys2Proof.Machine
end

