-- ==== Sys2Proof/Laws/Launch.lean ====
section
/-! SUPPORT. The launch: when it is accepted, and what its memory holds. -/

namespace Sys2Proof.Machine

/-- A launch that is accepted: every test passed, and its launch state. -/
theorem launch_ok {l : Launch} {s : State} : launch l = .ok s ↔
    l.entryPc.getLsbD 0 = false ∧
      (regionsHave l.code l.entryPc.toNat && regionsHave l.code (l.entryPc + 1#32).toNat) = true ∧
      regionsSubset l.code l.admitted = true ∧ regionsSubset l.code (l.program.map Block.region) = true ∧
      regionsSubset l.admitted (l.code ++ l.inputs.map Block.region) = true ∧ s = l.state := by
  unfold launch
  cases l.entryPc.getLsbD 0
  · cases (regionsHave l.code l.entryPc.toNat && regionsHave l.code (l.entryPc + 1#32).toNat)
    · simp
    · cases regionsSubset l.code l.admitted
      · simp
      · cases regionsSubset l.code (l.program.map Block.region)
        · simp
        · cases regionsSubset l.admitted (l.code ++ l.inputs.map Block.region) <;> simp [eq_comm]
  · simp

/-- A lookup finds something exactly where some cell has the address. -/
theorem lookup_isSome {cells : List Host.Cell} {a : Nat} : (cells.lookup a).isSome = true ↔ ∃ c ∈ cells, c.1 = a := by
  induction cells with
  | nil => simp
  | cons c rest ih =>
    by_cases h : a = c.1
    · subst h; simp [List.lookup]
    · have : (a == c.1) = false := by simpa using h
      simp [List.lookup, this, ih, eq_comm, h]

/-- A lookup does not see cells that a test on the address leaves out. -/
theorem lookup_filter (p : Nat → Bool) (cells : List Host.Cell) (a : Nat) :
    (cells.filter fun c => p c.1).lookup a = if p a then cells.lookup a else none := by
  induction cells with
  | nil => simp
  | cons c rest ih =>
    by_cases h : a = c.1
    · subst h
      by_cases hp : p c.1 = true
      · simp [hp, List.lookup]
      · simp [hp, ih]
    · have : (a == c.1) = false := by simpa using h
      by_cases hp : p c.1 = true <;> simp [hp, List.lookup, this, ih]

/-- The addresses of the cells of a block. -/
theorem cellsFrom_address {bytes : List Byte} {base a : Nat} :
    (∃ c ∈ cellsFrom base bytes, c.1 = a) ↔ base ≤ a ∧ a < base + bytes.length := by
  induction bytes generalizing base with
  | nil => simp [cellsFrom]
  | cons b rest ih =>
    simp only [cellsFrom, List.mem_cons, exists_eq_or_imp, ih, List.length_cons]
    omega

/-- Blocks give a byte exactly for the addresses of their regions. -/
theorem blocksByte_isSome {bs : List Block} {a : Nat} :
    (blocksByte bs a).isSome = true ↔ regionsHave (bs.map Block.region) a = true := by
  unfold blocksByte blocksCells
  rw [lookup_isSome, regionsHave_iff]
  simp only [List.mem_reverse, List.mem_flatMap, List.mem_map]
  constructor
  · rintro ⟨c, ⟨b, hb, hc⟩, e⟩
    exact ⟨_, ⟨b, hb, rfl⟩, cellsFrom_address.mp ⟨c, hc, e⟩⟩
  · rintro ⟨_, ⟨b, hb, rfl⟩, h⟩
    obtain ⟨c, hc, e⟩ := (cellsFrom_address (bytes := b.bytes) (base := b.base)).mpr h
    exact ⟨c, ⟨b, hb, hc⟩, e⟩

/-- The byte a launch writes at an address: the program's in `CODE`, the input's in the rest of `ADMIT`, none elsewhere. -/
theorem launch_cells_lookup (l : Launch) (a : Nat) : l.cells.reverse.lookup a =
    if regionsHave l.admitted a && decide (a < addressCount) then
      (if regionsHave l.code a then blocksByte l.program a else blocksByte l.inputs a) else none := by
  unfold Launch.cells blocksByte
  rw [← List.filter_reverse, lookup_filter fun a => regionsHave l.admitted a && decide (a < addressCount),
    List.reverse_append, List.lookup_append, ← List.filter_reverse, ← List.filter_reverse,
    lookup_filter (fun a => regionsHave l.code a), lookup_filter fun a => !regionsHave l.code a]
  cases regionsHave l.code a <;> simp

/-- What the memory of a launch holds at an address for which a byte is given. -/
theorem launch_memory_read (l : Launch) (a : Nat) : Memory.read l.memory a =
    (l.cells.reverse.lookup a).getD Memory.unlisted := read_writeCells List.Pairwise.nil a

end Sys2Proof.Machine
end

