-- ==== Sys2Proof/Laws/PerInstr.lean ====
section
/-! SUPPORT. The family of statements made per instruction: an encoding has the length rule R80 of 30_encoding.md gives it. -/

namespace Sys2Proof

/-- The bytes of an instruction's encoding are as many as its length says (30_encoding.md rule R80). -/
def Laws.EncodeLength.Statement (i : Instr) : Prop :=
  (encodeBytes i).length = i.lengthBytes ∧ 8 * i.lengthBytes = i.encoding.row.lengthBits

theorem Laws.EncodeLength.addReg (a : Reg) (b : Reg) : Laws.EncodeLength.Statement (.addReg a b) := ⟨rfl, rfl⟩
theorem Laws.EncodeLength.addImm5 (a : BitVec 5) (b : Reg) : Laws.EncodeLength.Statement (.addImm5 a b) := ⟨rfl, rfl⟩
theorem Laws.EncodeLength.addi (a : BitVec 16) (b : Reg) (c : Reg) : Laws.EncodeLength.Statement (.addi a b c) := ⟨rfl, rfl⟩
theorem Laws.EncodeLength.sub (a : Reg) (b : Reg) : Laws.EncodeLength.Statement (.sub a b) := ⟨rfl, rfl⟩
theorem Laws.EncodeLength.movReg (a : Reg) (b : Reg) : Laws.EncodeLength.Statement (.movReg a b) := ⟨rfl, rfl⟩
theorem Laws.EncodeLength.movImm5 (a : BitVec 5) (b : Reg) : Laws.EncodeLength.Statement (.movImm5 a b) := ⟨rfl, rfl⟩
theorem Laws.EncodeLength.movImm32 (a : BitVec 32) (b : Reg) : Laws.EncodeLength.Statement (.movImm32 a b) := ⟨rfl, rfl⟩
theorem Laws.EncodeLength.jmpReg (a : Reg) : Laws.EncodeLength.Statement (.jmpReg a) := ⟨rfl, rfl⟩
theorem Laws.EncodeLength.jmpDisp32 (a : BitVec 32) (b : Reg) : Laws.EncodeLength.Statement (.jmpDisp32 a b) := ⟨rfl, rfl⟩
theorem Laws.EncodeLength.cmpReg (a : Reg) (b : Reg) : Laws.EncodeLength.Statement (.cmpReg a b) := ⟨rfl, rfl⟩
theorem Laws.EncodeLength.cmpImm5 (a : BitVec 5) (b : Reg) : Laws.EncodeLength.Statement (.cmpImm5 a b) := ⟨rfl, rfl⟩
theorem Laws.EncodeLength.ldwDisp16 (a : BitVec 16) (b : Reg) (c : Reg) : Laws.EncodeLength.Statement (.ldwDisp16 a b c) := ⟨rfl, rfl⟩
theorem Laws.EncodeLength.ldwDisp23 (a : BitVec 23) (b : Reg) (c : Reg) : Laws.EncodeLength.Statement (.ldwDisp23 a b c) := ⟨rfl, rfl⟩
theorem Laws.EncodeLength.stwDisp16 (a : Reg) (b : BitVec 16) (c : Reg) : Laws.EncodeLength.Statement (.stwDisp16 a b c) := ⟨rfl, rfl⟩
theorem Laws.EncodeLength.stwDisp23 (a : Reg) (b : BitVec 23) (c : Reg) : Laws.EncodeLength.Statement (.stwDisp23 a b c) := ⟨rfl, rfl⟩
theorem Laws.EncodeLength.bv (a : BitVec 9) : Laws.EncodeLength.Statement (.bv a) := ⟨rfl, rfl⟩
theorem Laws.EncodeLength.bl (a : BitVec 9) : Laws.EncodeLength.Statement (.bl a) := ⟨rfl, rfl⟩
theorem Laws.EncodeLength.be (a : BitVec 9) : Laws.EncodeLength.Statement (.be a) := ⟨rfl, rfl⟩
theorem Laws.EncodeLength.bnh (a : BitVec 9) : Laws.EncodeLength.Statement (.bnh a) := ⟨rfl, rfl⟩
theorem Laws.EncodeLength.bn (a : BitVec 9) : Laws.EncodeLength.Statement (.bn a) := ⟨rfl, rfl⟩
theorem Laws.EncodeLength.br (a : BitVec 9) : Laws.EncodeLength.Statement (.br a) := ⟨rfl, rfl⟩
theorem Laws.EncodeLength.blt (a : BitVec 9) : Laws.EncodeLength.Statement (.blt a) := ⟨rfl, rfl⟩
theorem Laws.EncodeLength.ble (a : BitVec 9) : Laws.EncodeLength.Statement (.ble a) := ⟨rfl, rfl⟩
theorem Laws.EncodeLength.bnv (a : BitVec 9) : Laws.EncodeLength.Statement (.bnv a) := ⟨rfl, rfl⟩
theorem Laws.EncodeLength.bnl (a : BitVec 9) : Laws.EncodeLength.Statement (.bnl a) := ⟨rfl, rfl⟩
theorem Laws.EncodeLength.bne (a : BitVec 9) : Laws.EncodeLength.Statement (.bne a) := ⟨rfl, rfl⟩
theorem Laws.EncodeLength.bh (a : BitVec 9) : Laws.EncodeLength.Statement (.bh a) := ⟨rfl, rfl⟩
theorem Laws.EncodeLength.bp (a : BitVec 9) : Laws.EncodeLength.Statement (.bp a) := ⟨rfl, rfl⟩
theorem Laws.EncodeLength.bsa (a : BitVec 9) : Laws.EncodeLength.Statement (.bsa a) := ⟨rfl, rfl⟩
theorem Laws.EncodeLength.bge (a : BitVec 9) : Laws.EncodeLength.Statement (.bge a) := ⟨rfl, rfl⟩
theorem Laws.EncodeLength.bgt (a : BitVec 9) : Laws.EncodeLength.Statement (.bgt a) := ⟨rfl, rfl⟩

end Sys2Proof
end

