-- ==== Sys2Proof/Laws/Runs.lean ====
section
/-! SUPPORT. Runs: one step more, and the one induction over a run. -/

namespace Sys2Proof.Machine

theorem runsTo_zero {s t : State} : RunsTo 0 s t ↔ t = s :=
  ⟨fun h => (Host.Outcome.next.inj h).symm, fun h => h ▸ rfl⟩

/-- A run of one step more, on any machine. -/
theorem coreRun_succ {M : Host.Core} {n : Nat} {s t : M.State} :
    M.run (n + 1) s = .next t ↔ ∃ u, M.step s = .next u ∧ M.run n u = .next t := by
  rw [Host.Core.run]
  cases M.step s <;> simp

/-- A run of one step more is a step that answers a next state, and the rest of the run from there. -/
theorem runsTo_succ {n : Nat} {s t : State} : RunsTo (n + 1) s t ↔ ∃ u, step s = .next u ∧ RunsTo n u t :=
  coreRun_succ (M := Sys2Proof.core)

/-- A relation that holds of a state and itself, and goes back over one step, holds along every run. -/
theorem runsTo_induction {P : State → State → Prop} (refl : ∀ s, P s s)
    (back : ∀ s u t, step s = .next u → P u t → P s t) : ∀ n s t, RunsTo n s t → P s t
  | 0, s, t, h => by rw [runsTo_zero.mp h]; exact refl s
  | n + 1, s, t, h => by
    obtain ⟨u, hu, ht⟩ := runsTo_succ.mp h
    exact back s u t hu (runsTo_induction refl back n u t ht)

end Sys2Proof.Machine
end

