-- ==== Sys2Proof/Tests/Slice0.lean ====
section
/-! SUPPORT. Tests. Every expected value is the spec's: the tables of 95_test_vectors.md (named by their section) or the patterns
of 30_encoding.md R97. The witnesses at the end meet the hypotheses of the statements. -/

namespace Sys2Proof.Tests

open Sys2Proof.Machine

/-! ### Helpers -/

/-- The machine of 95_test_vectors.md section 2.10: the halfwords at 0x5000 in `CODE`, eight bytes of data from 0x8000, `ADMIT` also
0x8000 to 0x800F. -/
def machine (hs : List Half) : State :=
  { State.reset with
    pc := 0x5000
    admitted := [⟨0x8000, 16⟩]
    mem := [(0x8000, 0x78), (0x8001, 0x56), (0x8002, 0x34), (0x8003, 0x12), (0x8004, 0xEF), (0x8005, 0xBE), (0x8006, 0xAD),
      (0x8007, 0xDE)] }.placeCode 0x5000 (bytesOfHalves hs)

/-- A next state with the property. -/
def nextHas (o : Outcome) (p : State → Bool) : Bool :=
  match o with
  | .next t => p t
  | .fault _ => false
  | .refused _ => false

/-- This fault. -/
def faultsWith (o : Outcome) (f : Fault) : Bool :=
  match o with
  | .next _ => false
  | .fault g => g == f
  | .refused _ => false

/-- The four arithmetic flags. -/
def flagsAre (t : State) (cy ov s z : Bool) : Bool :=
  t.flags.cy == cy && t.flags.ov == ov && t.flags.s == s && t.flags.z == z

theorem next_of {o : Outcome} {p : State → Bool} (h : nextHas o p = true) : ∃ t, o = .next t ∧ p t = true := by
  cases o <;> simp_all [nextHas]

theorem fault_of {o : Outcome} {f : Fault} (h : faultsWith o f = true) : o = .fault f := by
  cases o <;> simp_all [faultsWith]

/-! ### Well-formed terms: what each check refuses -/

theorem test_wellFormed_refuses_mov_reg_to_r0 : (Instr.movReg 31 0).wellFormed = false := by decide
theorem test_wellFormed_refuses_mov_imm5_to_r0 : (Instr.movImm5 0 0).wellFormed = false := by decide
theorem test_wellFormed_refuses_odd_jump : (Instr.jmpDisp32 0x27 5).wellFormed = false := by decide
theorem test_wellFormed_refuses_odd_load16 : (Instr.ldwDisp16 1 6 8).wellFormed = false := by decide
theorem test_wellFormed_refuses_odd_load23 : (Instr.ldwDisp23 0x3FFFFF 5 7).wellFormed = false := by decide
theorem test_wellFormed_refuses_odd_store16 : (Instr.stwDisp16 8 9 6).wellFormed = false := by decide
theorem test_wellFormed_refuses_odd_store23 : (Instr.stwDisp23 7 1 5).wellFormed = false := by decide
theorem test_wellFormed_refuses_odd_branch : ∀ c, (Instr.branch c 3).wellFormed = false := by
  intro c; cases c <;> decide
theorem test_wellFormed_accepts_r0_elsewhere :
    (Instr.movReg 0 1).wellFormed = true ∧ (Instr.movImm32 0x8000 0).wellFormed = true ∧ (Instr.addi 1 3 0).wellFormed = true := by decide

/-! ### Decoding: a word of every constructor, written out from the patterns of 30_encoding.md R97 -/

theorem test_decode_addReg : decode [0b0001000111000001] = .ok (.addReg 1 2) [] := by decide
theorem test_decode_addImm5 : decode [0b1111101001001111] = .ok (.addImm5 15 31) [] := by decide
theorem test_decode_addi : decode [0b0010011000000011, 0b0000000001100100] = .ok (.addi 100 3 4) [] := by decide
theorem test_decode_sub : decode [0b0011100110100110] = .ok (.sub 6 7) [] := by decide
theorem test_decode_movReg : decode [0b0000100000000000] = .ok (.movReg 0 1) [] := by decide
theorem test_decode_movImm5 : decode [0b0100101000010000] = .ok (.movImm5 0b10000 9) [] := by decide
theorem test_decode_movImm32 : decode [0b0000011000111111, 0xFFFF, 0x7FFF] = .ok (.movImm32 0x7FFFFFFF 31) [] := by decide
theorem test_decode_jmpReg : decode [0b0000000001110100] = .ok (.jmpReg 20) [] := by decide
theorem test_decode_jmpDisp32 : decode [0b0000011011100101, 0b1111111111111110, 0xFFFF] = .ok (.jmpDisp32 0xFFFFFFFE 5) [] := by
  decide
theorem test_decode_cmpReg : decode [0b0001000111100001] = .ok (.cmpReg 1 2) [] := by decide
theorem test_decode_cmpImm5 : decode [0b0001001001110000] = .ok (.cmpImm5 0b10000 2) [] := by decide
theorem test_decode_ldwDisp16 : decode [0b0100011100100110, 0b0000000000000101] = .ok (.ldwDisp16 4 6 8) [] := by decide
theorem test_decode_ldwDisp23 : decode [0b0000011110000001, 0b0001011111101001, 0] = .ok (.ldwDisp23 0x7E 1 2) [] := by decide
theorem test_decode_stwDisp16 : decode [0b0100011101100110, 0b0000000000001001] = .ok (.stwDisp16 8 8 6) [] := by decide
theorem test_decode_stwDisp23 : decode [0b0000011110000101, 0b0011100000001111, 0x8000] = .ok (.stwDisp23 7 (-0x400000) 5) [] := by
  decide
theorem test_decode_bv : decode [0b1000010110000000] = .ok (.bv (-256)) [] := by decide
theorem test_decode_bl : decode [0b0000010110100001] = .ok (.bl 4) [] := by decide
theorem test_decode_be : decode [0b0000110110000010] = .ok (.be 16) [] := by decide
theorem test_decode_bnh : decode [0b0000010111000011] = .ok (.bnh 8) [] := by decide
theorem test_decode_bn : decode [0b0100010110000100] = .ok (.bn 128) [] := by decide
theorem test_decode_br : decode [0b1111110111110101] = .ok (.br (-2)) [] := by decide
theorem test_decode_blt : decode [0b0000010110110110] = .ok (.blt 6) [] := by decide
theorem test_decode_ble : decode [0b0001010111110111] = .ok (.ble 46) [] := by decide
theorem test_decode_bnv : decode [0b0010010110011000] = .ok (.bnv 66) [] := by decide
theorem test_decode_bnl : decode [0b0000010110111001] = .ok (.bnl 6) [] := by decide
theorem test_decode_bne : decode [0b1111110111101010] = .ok (.bne (-4)) [] := by decide
theorem test_decode_bh : decode [0b1111110110001011] = .ok (.bh (-16)) [] := by decide
theorem test_decode_bp : decode [0b1100010110001100] = .ok (.bp (-128)) [] := by decide
theorem test_decode_bsa : decode [0b0000010111111101] = .ok (.bsa 14) [] := by decide
theorem test_decode_bge : decode [0b1000010110001110] = .ok (.bge (-256)) [] := by decide
theorem test_decode_bgt : decode [0b0111110111111111] = .ok (.bgt 254) [] := by decide

/-! ### Reserved encodings (95_test_vectors.md section 2.1), the assembler's ranges, the host's word -/

theorem test_reserved_first_halfword : decode [0xFFFF] = .reserved 0xFFFF ∧ decode [0x0861] = .reserved 0x0861 ∧
    decode [0x0F85, 0x3809, 0] = .reserved 0x0F85 := by decide
theorem test_reserved_second_halfword : decode [0x4726, 0x0004] = .reserved 0x4726 ∧
    decode [0x06E5, 0x0027, 0] = .reserved 0x06E5 ∧ decode [0x0785, 0x3805, 0x0200] = .reserved 0x0785 := by decide
theorem test_missing_halfword : decode [] = .missing 0 ∧ decode [0x2603] = .missing 1 ∧ decode [0x0626, 0x8000] = .missing 2 := by
  decide
theorem test_branch_aliases : asmBranch "BC" 4 = some (.bl 4) ∧ asmBranch "BT" 4 = some (.be 4) ∧
    asmBranch "BZ" (-256) = some (.be (-256)) ∧ asmBranch "BF" 254 = some (.bne 254) := by decide
theorem test_assembler_refuses : asmDisp9 256 = none ∧ asmDisp9 3 = none ∧ asmImm5 16 = none ∧ asmMovReg2 0 = none ∧
    asmReg 32 = none := by decide
theorem test_text : (Instr.ldwDisp16 0xFFFC 6 8).text = "LD.W -4 [r6] , r8" ∧ (Instr.jmpDisp32 0x26 5).text = "JMP 38 [r5]" ∧
    (Instr.bne (-4)).text = "BNE -4" := by decide
theorem test_decodeTableWord : decodeTableWord 16 0x11C1 = some (.addReg 1 2) ∧
    decodeTableWord 48 0x020038050785 = none ∧ decodeTableWord 48 0x020038090785 = some (.ldwDisp23 0x10000 5 7) := by decide
theorem test_withFetchWord_runs_first : nextHas (step (State.reset.withFetchWord 48 0x123456780626))
    (fun t => t.x 6 == 0x12345678 && t.pc == 0x1006) = true := by decide

/-! ### One step of each instruction (95_test_vectors.md sections 2.2 to 2.10) -/

/-- The machine with two registers set. -/
def two (hs : List Half) (i : Reg) (a : Word) (j : Reg) (b : Word) : State := ((machine hs).setX i a).setX j b

theorem test_addReg_overflows : nextHas (step (two [0x11C1] 2 0x7FFFFFFF 1 1))
    (fun t => t.x 2 == 0x80000000 && t.x 1 == 1 && flagsAre t false true true false && t.pc == 0x5002) = true := by decide
theorem test_addReg_to_r0_sets_flags : nextHas (step (two [0x01C1] 1 0xFFFFFFFF 2 0))
    (fun t => t.x 0 == 0 && flagsAre t false false true false) = true := by decide
theorem test_addImm5_carries : nextHas (step (two [0x525F] 10 1 1 0))
    (fun t => t.x 10 == 0 && flagsAre t true false false true) = true := by decide
theorem test_addi_negative : nextHas (step (two [0x2603, 0x8000] 3 0x80007FFF 1 0))
    (fun t => t.x 4 == 0x7FFFFFFF && t.x 3 == 0x80007FFF && flagsAre t true true false false && t.pc == 0x5004) = true := by decide
theorem test_sub_borrows : nextHas (step (two [0x39A6] 6 5 7 3))
    (fun t => t.x 7 == 0xFFFFFFFE && t.x 6 == 5 && flagsAre t true false true false) = true := by decide
theorem test_sub_overflows : nextHas (step (two [0x39A6] 6 0xFFFFFFFF 7 0x7FFFFFFF))
    (fun t => t.x 7 == 0x80000000 && flagsAre t true true true false) = true := by decide
theorem test_movReg_copies : nextHas (step { two [0x1801] 1 0xDEADBEEF 3 0 with flags := ⟨true, true, false, true, true⟩ })
    (fun t => t.x 3 == 0xDEADBEEF && flagsAre t true true false true && t.pc == 0x5002) = true := by decide
theorem test_movImm5_extends_sign : nextHas (step (machine [0x4A10])) (fun t => t.x 9 == 0xFFFFFFF0) = true := by decide
theorem test_movImm32_low_half_first : nextHas (step (machine [0x0626, 0x5678, 0x1234]))
    (fun t => t.x 6 == 0x12345678 && t.pc == 0x5006) = true := by decide
theorem test_jmpReg_masks_bit0 : nextHas (step (two [0x007F] 31 0x00005003 1 0)) (fun t => t.pc == 0x5002) = true := by decide
theorem test_jmpDisp32_wraps : nextHas (step (two [0x06E5, 0x0010, 0x0000] 5 0xFFFFFFF9 1 0))
    (fun t => t.pc == 0x00000008 && t.x 5 == 0xFFFFFFF9) = true := by decide
theorem test_cmpReg_writes_no_register : nextHas (step (two [0x11E1] 2 0x80000000 1 0x7FFFFFFF))
    (fun t => t.x 2 == 0x80000000 && t.x 1 == 0x7FFFFFFF && flagsAre t false true false false) = true := by decide
theorem test_cmpImm5_borrows : nextHas (step (two [0x1270] 2 0x7FFFFFF0 1 0))
    (fun t => t.x 2 == 0x7FFFFFF0 && flagsAre t true true true false) = true := by decide
theorem test_ldwDisp16_old_base : nextHas (step (two [0x3726, 0x0001] 6 0x8000 1 0))
    (fun t => t.x 6 == 0x12345678 && t.pc == 0x5004) = true := by decide
theorem test_ldwDisp16_to_r0_still_faults : faultsWith (step (two [0x0726, 0x0001] 6 0x8002 1 0))
    (.misalignedAccess 0x5000 0x8002) = true := by decide
theorem test_ldwDisp23_reads : nextHas (step (two [0x0785, 0x3809, 0x8000] 5 0x00408004 1 0))
    (fun t => t.x 7 == 0xDEADBEEF && t.pc == 0x5006) = true := by decide
theorem test_stwDisp16_lowest_byte_first : nextHas (step (two [0x4766, 0x0009] 6 0x8000 8 0x80000001))
    (fun t => t.byteAt 0x8008 == 0x01 && t.byteAt 0x8009 == 0 && t.byteAt 0x800B == 0x80 && t.byteAt 0x8007 == 0xDE) = true := by
  decide
theorem test_stwDisp16_into_code_faults : faultsWith (step (two [0x4766, 0x0001] 6 0x5000 8 1))
    (.accessNotAdmitted 0x5000 0x5000) = true := by decide
theorem test_stwDisp23_writes : nextHas (step (two [0x0785, 0x380F, 0x0001] 5 0x7F80 7 0xFFFFFFED))
    (fun t => t.byteAt 0x8000 == 0xED && t.byteAt 0x8003 == 0xFF && t.byteAt 0x8004 == 0xEF && t.pc == 0x5006) = true := by decide

/-- Where a branch at 0x2000 goes under these flags (CY, OV, S, Z, SAT). -/
def goes (i : Instr) (cy ov s z sat : Bool) : Option Word :=
  match exec i { State.reset with pc := 0x2000, flags := ⟨cy, ov, s, z, sat⟩ } with
  | .next t => some t.pc
  | .fault _ => none
  | .refused _ => none

theorem test_bv : goes (.bv (-256)) false true false false false = some 0x1F00 ∧
    goes (.bv (-256)) true false true true true = some 0x2002 := by decide
theorem test_bl : goes (.bl 4) true false false false false = some 0x2004 ∧
    goes (.bl 4) false true true true true = some 0x2002 := by decide
theorem test_be : goes (.be 0) false false false true false = some 0x2000 ∧
    goes (.be 0) true true true false true = some 0x2002 := by decide
theorem test_bnh : goes (.bnh 8) false false false true false = some 0x2008 ∧
    goes (.bnh 8) false true true false true = some 0x2002 := by decide
theorem test_bn : goes (.bn 128) false false true false false = some 0x2080 ∧
    goes (.bn 128) true true false true true = some 0x2002 := by decide
theorem test_br : goes (.br (-2)) false false false false false = some 0x1FFE ∧
    goes (.br 2) true true true true true = some 0x2002 := by decide
theorem test_blt : goes (.blt 6) false true false false false = some 0x2006 ∧
    goes (.blt 6) true true true true true = some 0x2002 := by decide
theorem test_ble : goes (.ble 46) false true true true false = some 0x202E ∧
    goes (.ble 46) true true true false true = some 0x2002 := by decide
theorem test_bnv : goes (.bnv 66) true false true true true = some 0x2042 ∧
    goes (.bnv 66) false true false false false = some 0x2002 := by decide
theorem test_bnl : goes (.bnl 6) false true true true true = some 0x2006 ∧
    goes (.bnl 6) true false false false false = some 0x2002 := by decide
theorem test_bne : goes (.bne (-4)) true true true false true = some 0x1FFC ∧
    goes (.bne (-4)) false false false true false = some 0x2002 := by decide
theorem test_bh : goes (.bh (-16)) false true true false true = some 0x1FF0 ∧
    goes (.bh (-16)) false false false true false = some 0x2002 := by decide
theorem test_bp : goes (.bp (-128)) true true false true true = some 0x1F80 ∧
    goes (.bp (-128)) false false true false false = some 0x2002 := by decide
theorem test_bsa : goes (.bsa 14) false false false false true = some 0x200E ∧
    goes (.bsa 14) true true true true false = some 0x2002 := by decide
theorem test_bge : goes (.bge (-256)) false true true true false = some 0x1F00 ∧
    goes (.bge (-256)) true true false false true = some 0x2002 := by decide
theorem test_bgt : goes (.bgt 254) true true true false true = some 0x20FE ∧
    goes (.bgt 254) false false false true false = some 0x2002 := by decide

/-! ### Faults, the faulted state, the launch (95_test_vectors.md sections 2.10 and 2.11; 70_reset_and_hazards.md R223) -/

theorem test_all_zero_halfword_is_reserved :
    faultsWith (step (machine [0x0000])) (.reservedInstruction 0x5000 0x0000) = true := by decide
theorem test_end_of_code_faults : faultsWith (step (machine [])) (.accessNotAdmitted 0x5000 0x5000) = true := by decide
theorem test_third_halfword_missing :
    faultsWith (step (machine [0x0626, 0x8000])) (.accessNotAdmitted 0x5000 0x5004) = true := by decide
theorem test_load_outside_admitted : faultsWith (step (two [0x4726, 0x0011] 6 0xFFFFFFF0 1 0))
    (.accessNotAdmitted 0x5000 0x00000000) = true := by decide
theorem test_load_of_code : nextHas (step (two [0x4726, 0x0003] 6 0x4FFE 1 0)) (fun t => t.x 8 == 0x00034726) = true := by decide
theorem test_faulted_state_stays : (machine [0x0000]).afterStep.afterStep = (machine [0x0000]).afterStep ∧
    (machine [0x0000]).afterStep.pc = 0x5000 := by decide

/-- A launch of `BR 0` at 0x100A; `ADMIT` is 0x1000 to 0x100F. -/
def oneBranch (code : List Region) (entry : Word) : Launch :=
  { admitted := [⟨0x1000, 16⟩]
    code := code
    entryPc := entry
    program := [⟨0x100A, [0x85, 0x05]⟩]
    inputs := [⟨0x1000, [0, 1, 2, 3, 4, 5, 6, 7, 8, 9]⟩, ⟨0x100C, [12, 13, 14, 0xFF]⟩, ⟨0x100F, [15]⟩, ⟨0x2000, [0x01]⟩]
    regs := Vector.replicate 32 0xFFFFFFFF
    flags := ⟨true, true, true, true, true⟩ }

/-- What a launch is refused with. -/
def refusal (l : Launch) : Option LaunchRefusal :=
  match launch l with
  | .ok _ => none
  | .error r => some r

theorem test_launch_refusals : refusal (oneBranch [⟨0x100A, 2⟩] 0x100B) = some .oddEntry ∧
    refusal (oneBranch [⟨0x100A, 1⟩] 0x100A) = some .entryOutsideCode ∧
    refusal (oneBranch [⟨0x100A, 7⟩] 0x100A) = some .codeOutsideAdmit ∧
    refusal (oneBranch [⟨0x100A, 4⟩] 0x100A) = some .codeWithoutProgram ∧
    refusal { oneBranch [⟨0x100A, 2⟩] 0x100A with inputs := [⟨0x1000, [0, 1, 2, 3, 4, 5, 6, 7, 8, 9]⟩] } = some .inputNotGiven ∧
    refusal (oneBranch [⟨0x100A, 2⟩] 0x100A) = none := by decide
theorem test_launch_region_past_the_last_address :
    refusal { oneBranch [⟨0xFFFFFFFE, 0x100⟩] 0xFFFFFFFE with
      admitted := [⟨0xFFFFFFF0, 16⟩]
      program := [⟨0xFFFFFFFE, [0x85, 0x05]⟩]
      inputs := [⟨0xFFFFFFF0, List.replicate 14 0⟩] } = none := by decide
theorem test_launch_state : (oneBranch [⟨0x100A, 2⟩] 0x100A).state.x 0 = 0 ∧
    (oneBranch [⟨0x100A, 2⟩] 0x100A).state.x 31 = 0xFFFFFFFF ∧
    (oneBranch [⟨0x100A, 2⟩] 0x100A).state.byteAt 0x100B = 0x05 ∧
    (oneBranch [⟨0x100A, 2⟩] 0x100A).state.byteAt 0x100F = 15 ∧
    (oneBranch [⟨0x100A, 2⟩] 0x100A).state.mem.lookup 0x2000 = none := by decide

/-! ### Witnesses: for each statement with hypotheses, values that meet all of them, at the ends of each clause's range -/

theorem witness_DecodeOfEncode : (Instr.jmpDisp32 0xFFFFFFFE 31).wellFormed = true ∧ (Instr.movReg 0 31).wellFormed = true ∧
    (Instr.stwDisp23 0 (-0x400000) 31).wellFormed = true := by decide

theorem witness_EncodeOfDecode : decode [0xFDEA] = .ok (.bne (-4)) [] ∧
    decode [0x4726, 0xFFFD, 0x0585] = .ok (.ldwDisp16 0xFFFC 6 8) [0x0585] ∧
    decode [0x0785, 0x3FE9, 0x7FFF] = .ok (.ldwDisp23 0x3FFFFE 5 7) [] := by decide

theorem witness_InstructionLengths :
    (decode [0x11C1, 0x0585] = .ok (.addReg 1 2) [0x0585] ∧ decode [0x11C1] = .ok (.addReg 1 2) []) ∧
    (decode [0x2603, 0x0064] = .ok (.addi 100 3 4) [] ∧ decode [0x2603, 0x8000, 0] = .ok (.addi 0x8000 3 4) [0]) ∧
    (decode [0x0785, 0x3809, 0x0200] = .ok (.ldwDisp23 0x10000 5 7) [] ∧
      decode [0x0785, 0x380F, 0x8000] = .ok (.stwDisp23 7 (-0x400000) 5) []) := by decide

theorem witness_ImmediateOperandValues :
    (decode [0xFA4F, 0, 0] = .ok (.addImm5 0b01111 31) [0, 0] ∧ decode [0x4A10, 0, 0] = .ok (.movImm5 0b10000 9) [0, 0] ∧
      decode [0x127F, 0, 0] = .ok (.cmpImm5 0b11111 2) [0, 0]) ∧
    (decode [0x2603, 0x7FFF, 0] = .ok (.addi 0x7FFF 3 4) [0] ∧ decode [0x2603, 0x8000, 0] = .ok (.addi 0x8000 3 4) [0]) ∧
    (decode [0x0626, 0xFFFF, 0xFFFF] = .ok (.movImm32 0xFFFFFFFF 6) [] ∧
      decode [0x0626, 0, 0x8000] = .ok (.movImm32 0x80000000 6) []) := by decide

theorem witness_DisplacementOperandValues :
    (decode [0x7DFF, 0, 0] = .ok (.branch .gt 254) [0, 0] ∧ decode [0x8580, 0, 0] = .ok (.branch .v (-256)) [0, 0]) ∧
    (decode [0x4726, 0x7FFF, 0] = .ok (.ldwDisp16 0x7FFE 6 8) [0] ∧
      decode [0x4766, 0x8001, 0] = .ok (.stwDisp16 8 0x8000 6) [0]) ∧
    (decode [0x0785, 0x3FE9, 0x7FFF] = .ok (.ldwDisp23 0x3FFFFE 5 7) [] ∧
      decode [0x0785, 0x380F, 0x8000] = .ok (.stwDisp23 7 (-0x400000) 5) []) ∧
    (decode [0x06E5, 0xFFFE, 0xFFFF] = .ok (.jmpDisp32 0xFFFFFFFE 5) [] ∧ decode [0x06E5, 0, 0] = .ok (.jmpDisp32 0 5) []) := by
  decide

theorem witness_StepRunsDecodedInstruction : (machine [0x2603, 0x0064]).faulted = none ∧
    (Instr.addi 100 3 4).wellFormed = true ∧
    decode ((machine [0x2603, 0x0064]).fetchWindow (machine [0x2603, 0x0064]).pc 3) = .ok (.addi 100 3 4) [] := by decide

theorem witness_StepRunsEncodedInstruction : (machine [0xFA4F]).faulted = none ∧ (Instr.addImm5 15 31).wellFormed = true ∧
    (machine [0xFA4F]).HoldsCode (machine [0xFA4F]).pc (encodeBytes (.addImm5 15 31)) :=
  ⟨by decide, by decide, by decide, by decide, by decide, by decide, trivial⟩

/-- A first halfword with opcode 111111 selects no row. -/
theorem noRow (e : Encoding) (hw1 hw2 : Half) : e.selects (hw2 ++ hw1 ++ 0xFFFF#16) = false := by
  cases h : e.selects (hw2 ++ hw1 ++ 0xFFFF#16) with
  | false => rfl
  | true => exact absurd (selects_first h).1 (by cases e <;> decide)

theorem witness_ReservedFirstHalfwordFaults : (machine [0xFFFF]).faulted = none ∧
    (machine [0xFFFF]).fetchHalfword (machine [0xFFFF]).pc = .ok 0xFFFF ∧
    ∀ (e : Encoding) (hw1 hw2 : Half), e.selects (hw2 ++ hw1 ++ 0xFFFF#16) = false := ⟨by decide, by decide, noRow⟩

theorem witness_MovToR0IsReserved : (machine [0x001F]).faulted = none ∧
    (machine [0x001F]).fetchHalfword (machine [0x001F]).pc = .ok (0b00000000000#11 ++ 31#5) ∧
    (machine [0x0000]).fetchHalfword (machine [0x0000]).pc = .ok (0b00000000000#11 ++ 0#5) ∧
    (machine [0x0200]).faulted = none ∧
    (machine [0x0200]).fetchHalfword (machine [0x0200]).pc = .ok (0b00000010000#11 ++ 0#5) := by decide

theorem witness_WrongFixedBitsAreReserved :
    ((machine [0x0861]).faulted = none ∧ 0b000011#6 ∈ [0b000011#6, 0b110001#6, 0b110111#6, 0b111100#6] ∧ 1#5 ≠ 0#5 ∧
      (machine [0x0861]).fetchHalfword (machine [0x0861]).pc = .ok (1#5 ++ 0b000011#6 ++ 1#5)) ∧
    ((machine [0x06E5, 0x0027]).faulted = none ∧
      (machine [0x06E5, 0x0027]).fetchHalfword (machine [0x06E5, 0x0027]).pc = .ok (0#5 ++ 0b110111#6 ++ 5#5) ∧
      (machine [0x06E5, 0x0027]).fetchHalfword ((machine [0x06E5, 0x0027]).pc + 2#32) = .ok 0x0027 ∧
      (0x0027#16).getLsbD 0 = true) ∧
    ((machine [0x4726, 0x0004]).faulted = none ∧ 0b111001#6 ∈ [0b111001#6, 0b111011#6] ∧
      (machine [0x4726, 0x0004]).fetchHalfword (machine [0x4726, 0x0004]).pc = .ok (8#5 ++ 0b111001#6 ++ 6#5) ∧
      (machine [0x4726, 0x0004]).fetchHalfword ((machine [0x4726, 0x0004]).pc + 2#32) = .ok 0x0004 ∧
      (0x0004#16).getLsbD 0 = false) ∧
    ((machine [0x0785, 0x3805]).faulted = none ∧
      (machine [0x0785, 0x3805]).fetchHalfword (machine [0x0785, 0x3805]).pc = .ok (0#5 ++ 0b111100#6 ++ 5#5) ∧
      (machine [0x0785, 0x3805]).fetchHalfword ((machine [0x0785, 0x3805]).pc + 2#32) = .ok 0x3805 ∧
      (0x3805#16).extractLsb' 0 5 ≠ 0b01001#5 ∧ (0x3805#16).extractLsb' 0 5 ≠ 0b01111#5) := by decide

theorem witness_FetchReadsOnlyCode :
    ((machine [0x0585]).inCode 0x5000 = true ∧ (machine [0x0585]).inCode (0x5000 + 1#32) = true) ∧
    (machine [0x0585]).inCode 0x5002 = false ∧ (machine [0x0585]).inCode (0x5001 + 1#32) = false := by decide

theorem witness_FetchAndDecodeFaultOrder :
    ((machine []).faulted = none ∧ (machine []).fetchHalfword (machine []).pc = .error (.accessNotAdmitted 0x5000 0x5000)) ∧
    ((machine [0xFFFF]).faulted = none ∧ (machine [0xFFFF]).fetchHalfword (machine [0xFFFF]).pc = .ok 0xFFFF ∧
      headOf 0xFFFF = none) ∧
    ((machine [0x2603]).faulted = none ∧ (machine [0x2603]).fetchHalfword (machine [0x2603]).pc = .ok 0x2603 ∧
      headOf 0x2603 = some .addi ∧ 2 ≤ Head.addi.halfwords ∧
      (machine [0x2603]).fetchHalfword ((machine [0x2603]).pc + 2#32) = .error (.accessNotAdmitted 0x5000 0x5002)) ∧
    ((machine [0x4726, 4]).faulted = none ∧ (machine [0x4726, 4]).fetchHalfword (machine [0x4726, 4]).pc = .ok 0x4726 ∧
      headOf 0x4726 = some .ldwDisp16 ∧ 2 ≤ Head.ldwDisp16.halfwords ∧
      (machine [0x4726, 4]).fetchHalfword ((machine [0x4726, 4]).pc + 2#32) = .ok 4 ∧ Head.ldwDisp16.secondOk 4 = false) ∧
    ((machine [0x0626, 0]).faulted = none ∧ (machine [0x0626, 0]).fetchHalfword (machine [0x0626, 0]).pc = .ok 0x0626 ∧
      headOf 0x0626 = some .movImm32 ∧ (machine [0x0626, 0]).fetchHalfword ((machine [0x0626, 0]).pc + 2#32) = .ok 0 ∧
      Head.movImm32.secondOk 0 = true ∧ Head.movImm32.halfwords = 3 ∧
      (machine [0x0626, 0]).fetchHalfword ((machine [0x0626, 0]).pc + 4#32) = .error (.accessNotAdmitted 0x5000 0x5004)) := by
  decide

theorem witness_FaultWritesOnlyTheMark : step (machine [0x0000]) = .fault (.reservedInstruction 0x5000 0x0000) ∧
    step { machine [] with faulted := some (.misalignedAccess 0x5000 0x8002) } = .fault (.misalignedAccess 0x5000 0x8002) :=
  ⟨fault_of (by decide), fault_of (by decide)⟩

theorem witness_FaultRecordsItsCause :
    ((machine [0x0000]).faulted = none ∧ step (machine [0x0000]) = .fault (.reservedInstruction 0x5000 0x0000)) ∧
    ((two [0x4726, 0x0003] 6 0x8000 1 0).faulted = none ∧ step (two [0x4726, 0x0003] 6 0x8000 1 0) = .fault (.misalignedAccess 0x5000 0x8002)) ∧
    ((two [0x0785, 0x380F, 0] 5 0x8003 7 0).faulted = none ∧ step (two [0x0785, 0x380F, 0] 5 0x8003 7 0) = .fault (.misalignedAccess 0x5000 0x8003)) ∧
    ((machine []).faulted = none ∧ step (machine []) = .fault (.accessNotAdmitted 0x5000 0x5000)) ∧
    ((machine [0x2603]).faulted = none ∧ step (machine [0x2603]) = .fault (.accessNotAdmitted 0x5000 0x5002)) ∧
    ((machine [0x0626, 0x8000]).faulted = none ∧ step (machine [0x0626, 0x8000]) = .fault (.accessNotAdmitted 0x5000 0x5004)) ∧
    ((two [0x4726, 0x0003] 6 0x800E 1 0).faulted = none ∧ step (two [0x4726, 0x0003] 6 0x800E 1 0) = .fault (.accessNotAdmitted 0x5000 0x8010)) ∧
    ((two [0x4766, 0x0003] 6 0x800E 1 0).faulted = none ∧ step (two [0x4766, 0x0003] 6 0x800E 1 0) = .fault (.accessNotAdmitted 0x5000 0x8010)) ∧
    ((two [0x4766, 0x0001] 6 0x5000 8 1).faulted = none ∧ step (two [0x4766, 0x0001] 6 0x5000 8 1) = .fault (.accessNotAdmitted 0x5000 0x5000)) :=
  ⟨⟨by decide, fault_of (by decide)⟩,
    ⟨by decide, fault_of (by decide)⟩,
    ⟨by decide, fault_of (by decide)⟩,
    ⟨by decide, fault_of (by decide)⟩,
    ⟨by decide, fault_of (by decide)⟩,
    ⟨by decide, fault_of (by decide)⟩,
    ⟨by decide, fault_of (by decide)⟩,
    ⟨by decide, fault_of (by decide)⟩,
    ⟨by decide, fault_of (by decide)⟩⟩

theorem witness_OnlyListedRegisterWritten :
    (∃ t, exec (.addReg 1 2) (machine []) = .next t) ∧ (Instr.addReg 1 2).writesReg ≠ some 1 ∧
    (∃ t, exec (.cmpReg 1 2) (machine []) = .next t) ∧ (Instr.cmpReg 1 2).writesReg ≠ some 2 :=
  ⟨⟨_, rfl⟩, by decide, ⟨_, rfl⟩, by decide⟩

theorem witness_OnlyListedRegistersRead :
    ((machine []).setX 2 7).pc = (machine []).pc ∧ ((machine []).setX 2 7).flags = (machine []).flags ∧
    ((machine []).setX 2 7).mem = (machine []).mem ∧ ((machine []).setX 2 7).admitted = (machine []).admitted ∧
    ((machine []).setX 2 7).code = (machine []).code ∧ ((machine []).setX 2 7).x 2 ≠ (machine []).x 2 ∧
    (∀ r ∈ (Instr.movReg 1 2).readsRegs, ((machine []).setX 2 7).x r = (machine []).x r) ∧
    (∃ t, exec (.movReg 1 2) (machine []) = .next t) ∧
    ∃ f, exec (.ldwDisp16 2 1 2) (machine []) = .fault f :=
  ⟨by decide, by decide, by decide, by decide, by decide, by decide, by decide, ⟨_, rfl⟩,
    ⟨_, fault_of (f := .misalignedAccess 0x5000 2) (by decide)⟩⟩

theorem witness_FlagsWrittenAndRead :
    (Instr.addi 0x8000 1 2).additionOf (machine []) = some (0, 0xFFFF8000) ∧
    (Instr.cmpImm5 0b10000 2).subtractionOf (machine []) = some (0, 0xFFFFFFF0) ∧
    (Instr.movImm5 0 2).additionOf (machine []) = none ∧ (Instr.movImm5 0 2).subtractionOf (machine []) = none ∧
    ∃ t, exec (.movImm5 0 2) (machine []) = .next t := ⟨by decide, by decide, by decide, by decide, _, rfl⟩

theorem witness_SaturatedFlagNeverWritten : ∃ t, RunsTo 1 (machine [0x525F]) t := by
  obtain ⟨t, h, _⟩ := next_of (o := step (machine [0x525F])) (p := fun _ => true) (by decide)
  exact ⟨t, runsTo_succ.mpr ⟨t, h, runsTo_zero.mpr rfl⟩⟩

theorem witness_ControlTransferClearsBitZero : condHolds .always (machine []).flags = true ∧ evenDisp (254#9) = true ∧
    evenDisp (256#9) = true ∧ (machine []).pc.getLsbD 0 = false := by decide

theorem witness_SignedBranches : evenDisp (254#9) = true ∧ evenDisp (256#9) = true ∧ evenDisp (0#9) = true ∧
    (machine []).pc.getLsbD 0 = false := by decide

theorem witness_UnsignedBranches : evenDisp (2#9) = true ∧ evenDisp (510#9) = true ∧
    ({ machine [] with pc := 0xFFFFFFFE }).pc.getLsbD 0 = false := by decide

theorem witness_SingleFlagBranches : evenDisp (254#9) = true ∧ evenDisp (256#9) = true ∧ (machine []).pc.getLsbD 0 = false := by
  decide

theorem witness_AlwaysAndSaturatedBranches : evenDisp (0#9) = true ∧ evenDisp (256#9) = true ∧
    (machine []).pc.getLsbD 0 = false := by decide

theorem witness_CompareThenBranchDecidesOrder : evenDisp (256#9) = true ∧ (machine []).pc.getLsbD 0 = false ∧
    ∃ t, exec (.cmpReg 1 2) (two [] 1 0x80000000 2 0x7FFFFFFF) = .next t := ⟨by decide, by decide, _, rfl⟩

theorem witness_SequentialFlow : (Instr.movImm32 0 0).transfersControl = false ∧
    ∃ t, exec (.movImm32 0 0) { machine [] with pc := 0xFFFFFFFA } = .next t := ⟨by decide, _, rfl⟩

theorem witness_LoadWord : ((0xFFFFFFFC#32).toNat % 4 = 0 ∧ State.reset.WordAdmitted 0xFFFFFFFC ∧
      0xFFFFFFFC#32 = State.reset.x 1 + (0xFFFC#16).signExtend 32) ∧
    (0x0#32).toNat % 4 = 0 ∧ State.reset.WordAdmitted 0 ∧ 0#32 = State.reset.x 1 + (0#23).signExtend 32 := by
  unfold State.WordAdmitted; decide

theorem witness_StoreWord :
    (Memory.wf (two [0x0585] 6 0x8000 1 0).mem ∧ (0x800C#32).toNat % 4 = 0 ∧
      (two [0x0585] 6 0x8000 1 0).WordAdmitted 0x800C ∧ (two [0x0585] 6 0x8000 1 0).WordOutsideCode 0x800C ∧
      0x800C = (two [0x0585] 6 0x8000 1 0).effectiveAddress 6 (disp16Value 12)) ∧
    (Memory.wf (two [0x0585] 6 0x408000 1 0).mem ∧ (0x8000#32).toNat % 4 = 0 ∧
      (two [0x0585] 6 0x408000 1 0).WordAdmitted 0x8000 ∧ (two [0x0585] 6 0x408000 1 0).WordOutsideCode 0x8000 ∧
      0x8000 = (two [0x0585] 6 0x408000 1 0).effectiveAddress 6 (disp23Value (-0x400000))) := by
  unfold State.WordAdmitted State.WordOutsideCode; decide

theorem witness_MisalignedWordFaults : ((0x8001#32).toNat % 4 ≠ 0 ∧
      0x8001 = (two [] 6 0x7FFF 1 0).effectiveAddress 6 (disp16Value 2)) ∧
    ((0x8003#32).toNat % 4 ≠ 0 ∧ 0x8003 = (two [] 6 0x8001 1 0).effectiveAddress 6 (disp23Value 2)) := by decide

theorem witness_AccessOutsideAdmitFaults :
    ((0x8010#32).toNat % 4 = 0 ∧ ¬ (two [] 6 0x800E 1 0).WordAdmitted 0x8010 ∧
      0x8010 = (two [] 6 0x800E 1 0).effectiveAddress 6 (disp16Value 2)) ∧
    ((0x7FFC#32).toNat % 4 = 0 ∧ ¬ (two [] 6 0x8000 1 0).WordAdmitted 0x7FFC ∧
      0x7FFC = (two [] 6 0x8000 1 0).effectiveAddress 6 (disp23Value (-4))) ∧
    ((0x5000#32).toNat % 4 = 0 ∧ ¬ (two [0, 0] 6 0x5000 1 0).WordOutsideCode 0x5000 ∧
      0x5000 = (two [0, 0] 6 0x5000 1 0).effectiveAddress 6 (disp16Value 0)) := by
  unfold State.WordAdmitted State.WordOutsideCode; decide

theorem witness_LoadSeesLatestStore : Memory.wf (machine []).mem ∧ (∃ t, (machine []).memWrite 0x800C 1 = .ok t) ∧
    0x8008#32 ≠ 0x800C#32 := ⟨by decide, ⟨_, rfl⟩, by decide⟩

/-- The test machine has the invariant. -/
theorem machine_inv : (machine [0x0585]).Inv where
  mem_wf := by decide
  mem_admitted := by decide
  pc_even := by decide
  r0_zero := by decide
  code_admitted := regionsSubset_iff_word.mp (by decide)

theorem witness_StepKeepsInvariant : (machine [0x0585]).Inv ∧ ∃ t, step (machine [0x0585]) = .next t := by
  obtain ⟨t, h, _⟩ := next_of (o := step (machine [0x0585])) (p := fun _ => true) (by decide)
  exact ⟨machine_inv, t, h⟩

theorem witness_LaunchHasInvariant : launch (oneBranch [⟨0x100A, 2⟩] 0x100A) = .ok (oneBranch [⟨0x100A, 2⟩] 0x100A).state := by rfl

theorem witness_CodeNeverChanges : (machine [0x0585]).Inv ∧ (machine [0x0585]).inCode 0x5001 = true ∧
    ∃ t, RunsTo 1 (machine [0x0585]) t := by
  obtain ⟨t, h, _⟩ := next_of (o := step (machine [0x0585])) (p := fun _ => true) (by decide)
  exact ⟨machine_inv, by decide, t, runsTo_succ.mpr ⟨t, h, runsTo_zero.mpr rfl⟩⟩

theorem witness_FinalStatesAreSelfBranches :
    ((machine [0x0585]).faulted = none ∧ (machine [0x0585]).pc.getLsbD 0 = false ∧ (machine [0x0585]).fetchInstr = .ok (.br 0)) ∧
    ((two [0x0061] 1 0x5001 2 0).faulted = none ∧ (two [0x0061] 1 0x5001 2 0).pc.getLsbD 0 = false ∧
      (two [0x0061] 1 0x5001 2 0).fetchInstr = .ok (.jmpReg 1)) ∧
    ((machine [0x06E0, 0x5000, 0]).faulted = none ∧ (machine [0x06E0, 0x5000, 0]).pc.getLsbD 0 = false ∧
      (machine [0x06E0, 0x5000, 0]).fetchInstr = .ok (.jmpDisp32 0x5000 0)) := by decide

theorem witness_LaunchStateIsAsChosen : launch (oneBranch [⟨0x100A, 2⟩] 0x100A) = .ok (oneBranch [⟨0x100A, 2⟩] 0x100A).state ∧
    (oneBranch [⟨0x100A, 2⟩] 0x100A).state.inCode 0x100B = true ∧
    (oneBranch [⟨0x100A, 2⟩] 0x100A).state.inAdmit 0x100F = true ∧
    (oneBranch [⟨0x100A, 2⟩] 0x100A).state.inCode 0x100F = false := ⟨by rfl, by decide, by decide, by decide⟩

theorem witness_FetchReadsTheProgram : launch (oneBranch [⟨0x100A, 2⟩] 0x100A) = .ok (oneBranch [⟨0x100A, 2⟩] 0x100A).state ∧
    ∃ t, RunsTo 1 (oneBranch [⟨0x100A, 2⟩] 0x100A).state t ∧ t.fetchHalfword 0x100A = .ok 0x0585 := by
  obtain ⟨t, h, p⟩ := next_of (o := step (oneBranch [⟨0x100A, 2⟩] 0x100A).state)
    (p := fun t => decide (t.fetchHalfword 0x100A = .ok 0x0585)) (by decide)
  exact ⟨by rfl, t, runsTo_succ.mpr ⟨t, h, runsTo_zero.mpr rfl⟩, of_decide_eq_true p⟩

theorem witness_LoadedWordIsTheNextInstruction : Memory.wf State.reset.mem ∧ decodeTableWord 16 0x11C1 = some (.addReg 1 2) ∧
    decodeTableWord 32 0x00090766 = some (.stwDisp16 0 8 6) ∧ decodeTableWord 48 0xFFFFFFFE06E5 = some (.jmpDisp32 0xFFFFFFFE 5) := by
  decide

end Sys2Proof.Tests
end

section
/-! PROOFS of the family 10_state.md: what the four arithmetic flags say (R28 to R31), as integers. -/

namespace Sys2Proof.Machine

/-- The overflow bit of an addition is signed overflow (10_state.md R29). -/
theorem addFlags_ov_iff (a b : Word) : (addFlags a b).ov = true ↔
    a.toInt + b.toInt < -2147483648 ∨ 2147483647 < a.toInt + b.toInt := by
  have hov : (addFlags a b).ov = BitVec.saddOverflow a b := by
    rw [addFlags_ov, BitVec.saddOverflow_eq]; rfl
  rw [hov, BitVec.saddOverflow]
  simp only [Bool.or_eq_true, decide_eq_true_eq]
  omega

/-- The overflow bit of a subtraction is signed overflow (10_state.md R29). -/
theorem subFlags_ov_iff (a b : Word) : (subFlags a b).ov = true ↔
    a.toInt - b.toInt < -2147483648 ∨ 2147483647 < a.toInt - b.toInt := by
  have hov : (subFlags a b).ov = BitVec.ssubOverflow a b := by
    rw [subFlags_ov, BitVec.ssubOverflow_eq]
    cases a.msb <;> cases b.msb <;> simp
  rw [hov, BitVec.ssubOverflow]
  simp only [Bool.or_eq_true, decide_eq_true_eq]
  omega

variable {s t : State}

/-- Flags written from `addFlags` are those of the addition. -/
theorem additionFlags_of_writeArith {a b : Word} (h : t.flags = s.flags.writeArith (addFlags a b)) :
    AdditionFlags s t a b := by
  unfold AdditionFlags
  rw [h]
  exact ⟨by simp [addFlags_cy], addFlags_ov_iff a b, by simp [addFlags_s, BitVec.msb_eq_getLsbD_last],
    by simp [addFlags_z], rfl⟩

/-- Flags written from `subFlags` are those of the subtraction. -/
theorem subtractionFlags_of_writeArith {a b : Word} (h : t.flags = s.flags.writeArith (subFlags a b)) :
    SubtractionFlags s t a b := by
  have hz : (subFlags a b).z = true ↔ a = b := by rw [subFlags_z, beq_iff_eq]; exact sub_eq_zero
  unfold SubtractionFlags
  rw [h]
  exact ⟨by simp [subFlags_cy], subFlags_ov_iff a b, by simp [subFlags_s, BitVec.msb_eq_getLsbD_last], hz, rfl⟩

end Sys2Proof.Machine
end

section
/-! PROOFS of the family 10_state.md: which instructions write the flags, and which leave them (R28 to R31, R33). -/

namespace Sys2Proof.Machine

variable {s t : State} {i : Instr} {a b : Word}

/-! ### The shared operations that write no flag -/

theorem finishMove_flags {dest : Reg} {v len : Word} (h : finishMove s dest v len = .next t) : t.flags = s.flags := by
  rw [finishMove_next.mp h]; simp

theorem branchOn_flags {c : Cond} {d : BitVec 9} (h : branchOn s c d = .next t) : t.flags = s.flags := by
  rw [branchOn_next.mp h]; split <;> rfl

theorem finishLoad_flags {addr len : Word} {dest : Reg} (h : finishLoad s addr dest len = .next t) :
    t.flags = s.flags := by
  obtain ⟨v, -, rfl⟩ := finishLoad_next.mp h
  simp

theorem memWrite_flags {addr v : Word} (h : s.memWrite addr v = .ok t) : t.flags = s.flags := by
  obtain ⟨-, -, -, rfl⟩ := memWrite_ok.mp h
  rfl

theorem finishStore_flags {addr len : Word} {src : Reg} (h : finishStore s addr src len = .next t) :
    t.flags = s.flags := by
  obtain ⟨u, hu, rfl⟩ := finishStore_next.mp h
  rw [advance_flags, memWrite_flags hu]

/-! ### The shared operations that write them -/

theorem finishArith_flags (s : State) (dest : Reg) (r : ArithResult) (len : Word) :
    ∃ t, finishArith s dest r len = .next t ∧ t.flags = s.flags.writeArith r := ⟨_, rfl, by simp⟩

theorem finishCompare_flags (s : State) (r : ArithResult) (len : Word) :
    ∃ t, finishCompare s r len = .next t ∧ t.flags = s.flags.writeArith r := ⟨_, rfl, rfl⟩

/-! ### The instructions -/

/-- ADD and ADDI complete and write the flags of their addition. -/
theorem exec_addition_flags (h : i.additionOf s = some (a, b)) :
    ∃ t, exec i s = .next t ∧ t.flags = s.flags.writeArith (addFlags a b) := by
  cases i with
  | addReg _ _ => cases h; exact finishArith_flags ..
  | addImm5 _ _ => cases h; exact finishArith_flags ..
  | addi _ _ _ => cases h; exact finishArith_flags ..
  | _ => cases h

/-- SUB and CMP complete and write the flags of their subtraction. -/
theorem exec_subtraction_flags (h : i.subtractionOf s = some (a, b)) :
    ∃ t, exec i s = .next t ∧ t.flags = s.flags.writeArith (subFlags a b) := by
  cases i with
  | sub _ _ => cases h; exact finishArith_flags ..
  | cmpReg _ _ => cases h; exact finishCompare_flags ..
  | cmpImm5 _ _ => cases h; exact finishCompare_flags ..
  | _ => cases h

/-- An instruction that neither adds nor subtracts leaves all five flags. -/
theorem exec_flags_same (ha : i.additionOf s = none) (hs : i.subtractionOf s = none) (h : exec i s = .next t) :
    t.flags = s.flags := by
  cases i with
  | addReg _ _ => cases ha
  | addImm5 _ _ => cases ha
  | addi _ _ _ => cases ha
  | sub _ _ => cases hs
  | cmpReg _ _ => cases hs
  | cmpImm5 _ _ => cases hs
  | movReg _ _ => exact finishMove_flags h
  | movImm5 _ _ => exact finishMove_flags h
  | movImm32 _ _ => exact finishMove_flags h
  | jmpReg _ => cases h; rfl
  | jmpDisp32 _ _ => cases h; rfl
  | ldwDisp16 _ _ _ => exact finishLoad_flags h
  | ldwDisp23 _ _ _ => exact finishLoad_flags h
  | stwDisp16 _ _ _ => exact finishStore_flags h
  | stwDisp23 _ _ _ => exact finishStore_flags h
  | br _ => exact branchOn_flags (c := .always) h
  | _ => exact branchOn_flags h

end Sys2Proof.Machine
end

section
/-! PROOFS of the family 10_state.md: which conditions read which flag (R28 to R31). -/

namespace Sys2Proof.Machine

/-- The flags all 0: every condition that reads a flag changes its answer here when that flag alone flips. -/
def Flags.clear : Flags := { cy := false, ov := false, s := false, z := false, sat := false }

/-- The conditions a change of the flags can matter to are those of a list, where it matters to each of them at the flags all 0
and to no other at any flags. -/
theorem readers_iff {flip : Flags → Flags} {cs : List Cond}
    (hread : ∀ c ∈ cs, condHolds c (flip .clear) ≠ condHolds c .clear)
    (hskip : ∀ c, c ∉ cs → ∀ f, condHolds c (flip f) = condHolds c f) (c : Cond) :
    (∃ f, condHolds c (flip f) ≠ condHolds c f) ↔ c ∈ cs := by
  constructor
  · rintro ⟨f, hf⟩
    by_contra hc
    exact hf (hskip c hc f)
  · exact fun hc => ⟨.clear, hread c hc⟩

theorem readers_cy (c : Cond) :
    (∃ f : Flags, condHolds c { f with cy := !f.cy } ≠ condHolds c f) ↔ c ∈ [.l, .nl, .nh, .h] := by
  refine readers_iff (flip := fun f => { f with cy := !f.cy }) (by decide) ?_ c
  intro c hc f
  cases c <;> simp [condHolds] at hc ⊢

theorem readers_ov (c : Cond) :
    (∃ f : Flags, condHolds c { f with ov := !f.ov } ≠ condHolds c f) ↔ c ∈ [.v, .nv, .lt, .ge, .le, .gt] := by
  refine readers_iff (flip := fun f => { f with ov := !f.ov }) (by decide) ?_ c
  intro c hc f
  cases c <;> simp [condHolds] at hc ⊢

theorem readers_s (c : Cond) :
    (∃ f : Flags, condHolds c { f with s := !f.s } ≠ condHolds c f) ↔ c ∈ [.n, .p, .lt, .ge, .le, .gt] := by
  refine readers_iff (flip := fun f => { f with s := !f.s }) (by decide) ?_ c
  intro c hc f
  cases c <;> simp [condHolds] at hc ⊢

theorem readers_z (c : Cond) :
    (∃ f : Flags, condHolds c { f with z := !f.z } ≠ condHolds c f) ↔ c ∈ [.e, .ne, .nh, .h, .le, .gt] := by
  refine readers_iff (flip := fun f => { f with z := !f.z }) (by decide) ?_ c
  intro c hc f
  cases c <;> simp [condHolds] at hc ⊢

end Sys2Proof.Machine
end

section
/-! PROOFS of the family 10_state.md: no form writes a flag unconditionally (R33), and O22. -/

namespace Sys2Proof.Machine

/-- Some completed instruction of the encoding leaves the flag at `v`. -/
def LeavesFlag (e : Encoding) (flag : Flags → Bool) (v : Bool) : Prop :=
  ∃ i s t, Instr.encoding i = e ∧ exec i s = .next t ∧ flag t.flags = v

/-- For any two operands, the second one that an imm5 can give, some instruction of the encoding writes the flags of `f`. -/
def WritesFlagsOf (f : Word → Word → ArithResult) (e : Encoding) : Prop :=
  ∀ (a : Word) (imm5 : BitVec 5), ∃ i s t, Instr.encoding i = e ∧ exec i s = .next t ∧
    t.flags = s.flags.writeArith (f a (imm5.signExtend 32))

/-- An encoding that writes the flags of `f` leaves in each of the four what `f` says for some operands. -/
theorem WritesFlagsOf.leaves {f : Word → Word → ArithResult} {e : Encoding} (h : WritesFlagsOf f e) (a : Word)
    (imm5 : BitVec 5) :
    LeavesFlag e Flags.cy (f a (imm5.signExtend 32)).cy ∧ LeavesFlag e Flags.ov (f a (imm5.signExtend 32)).ov ∧
      LeavesFlag e Flags.s (f a (imm5.signExtend 32)).s ∧ LeavesFlag e Flags.z (f a (imm5.signExtend 32)).z := by
  obtain ⟨i, s, t, he, hx, hf⟩ := h a imm5
  exact ⟨⟨i, s, t, he, hx, by rw [hf]; rfl⟩, ⟨i, s, t, he, hx, by rw [hf]; rfl⟩, ⟨i, s, t, he, hx, by rw [hf]; rfl⟩,
    ⟨i, s, t, he, hx, by rw [hf]; rfl⟩⟩

/-- The state after reset with `v` in r1 and `w` in r2. -/
def regs12 (v w : Word) : State := (State.reset.setX 1 v).setX 2 w

@[simp] theorem regs12_x1 (v w : Word) : (regs12 v w).x 1 = v := by
  rw [regs12, setX_x_ne _ (by decide), setX_x_same]; rfl

@[simp] theorem regs12_x2 (v w : Word) : (regs12 v w).x 2 = w := by rw [regs12, setX_x_same]; rfl

theorem writesFlagsOf_add {e : Encoding} (h : ∀ (a : Word) (imm5 : BitVec 5), ∃ i s, Instr.encoding i = e ∧
    i.additionOf s = some (a, imm5.signExtend 32)) : WritesFlagsOf addFlags e := by
  intro a imm5
  obtain ⟨i, s, he, hi⟩ := h a imm5
  obtain ⟨t, ht⟩ := exec_addition_flags hi
  exact ⟨i, s, t, he, ht⟩

theorem writesFlagsOf_sub {e : Encoding} (h : ∀ (a : Word) (imm5 : BitVec 5), ∃ i s, Instr.encoding i = e ∧
    i.subtractionOf s = some (a, imm5.signExtend 32)) : WritesFlagsOf subFlags e := by
  intro a imm5
  obtain ⟨i, s, he, hi⟩ := h a imm5
  obtain ⟨t, ht⟩ := exec_subtraction_flags hi
  exact ⟨i, s, t, he, ht⟩

theorem addReg_writesFlags : WritesFlagsOf addFlags .addReg := writesFlagsOf_add fun a imm5 =>
  ⟨.addReg 1 2, regs12 (imm5.signExtend 32) a, rfl, by simp [Instr.additionOf]⟩

theorem addImm5_writesFlags : WritesFlagsOf addFlags .addImm5 := writesFlagsOf_add fun a imm5 =>
  ⟨.addImm5 imm5 2, regs12 0 a, rfl, by simp [Instr.additionOf]⟩

theorem addi_writesFlags : WritesFlagsOf addFlags .addi := writesFlagsOf_add fun a imm5 =>
  ⟨.addi (imm5.signExtend 16) 1 2, regs12 a 0, rfl, by
    have hext : (imm5.signExtend 16).signExtend 32 = imm5.signExtend 32 := BitVec.eq_of_toInt_eq (by
      simp only [BitVec.toInt_signExtend_of_le, Nat.reduceLeDiff])
    simp [Instr.additionOf, hext]⟩

theorem sub_writesFlags : WritesFlagsOf subFlags .sub := writesFlagsOf_sub fun a imm5 =>
  ⟨.sub 1 2, regs12 (imm5.signExtend 32) a, rfl, by simp [Instr.subtractionOf]⟩

theorem cmpReg_writesFlags : WritesFlagsOf subFlags .cmpReg := writesFlagsOf_sub fun a imm5 =>
  ⟨.cmpReg 1 2, regs12 (imm5.signExtend 32) a, rfl, by simp [Instr.subtractionOf]⟩

theorem cmpImm5_writesFlags : WritesFlagsOf subFlags .cmpImm5 := writesFlagsOf_sub fun a imm5 =>
  ⟨.cmpImm5 imm5 2, regs12 0 a, rfl, by simp [Instr.subtractionOf]⟩

/-- Each of the four flags can be left at `v`. -/
def LeavesEach (e : Encoding) (v : Bool) : Prop :=
  LeavesFlag e Flags.cy v ∧ LeavesFlag e Flags.ov v ∧ LeavesFlag e Flags.s v ∧ LeavesFlag e Flags.z v

/-- The operands: 0 + 0 sets Z alone, 0x80000000 + 0 sets S alone, 0x80000000 - 1 sets CY and OV alone. -/
theorem leavesEach_of_add {e : Encoding} (h : WritesFlagsOf addFlags e) (v : Bool) : LeavesEach e v := by
  obtain ⟨cy0, ov0, s0, z1⟩ := h.leaves 0 0
  obtain ⟨-, -, s1, z0⟩ := h.leaves 0x80000000 0
  obtain ⟨cy1, ov1, -, -⟩ := h.leaves 0x80000000 (-1)
  cases v with
  | false => exact ⟨cy0, ov0, s0, z0⟩
  | true => exact ⟨cy1, ov1, s1, z1⟩

/-- The operands: 0 - 0 sets Z alone, 0x7FFFFFFF minus -1 sets the other three. -/
theorem leavesEach_of_sub {e : Encoding} (h : WritesFlagsOf subFlags e) (v : Bool) : LeavesEach e v := by
  obtain ⟨cy0, ov0, s0, z1⟩ := h.leaves 0 0
  obtain ⟨cy1, ov1, s1, z0⟩ := h.leaves 0x7FFFFFFF (-1)
  cases v with
  | false => exact ⟨cy0, ov0, s0, z0⟩
  | true => exact ⟨cy1, ov1, s1, z1⟩

/-- No form that writes the flags sets or clears one unconditionally. -/
theorem leavesEach_of_mem {e : Encoding} (he : e ∈ [Encoding.addReg, .addImm5, .addi, .sub, .cmpReg, .cmpImm5]) :
    ∀ v, LeavesEach e v := by
  simp only [List.mem_cons, List.not_mem_nil, or_false] at he
  obtain rfl | rfl | rfl | rfl | rfl | rfl := he
  · exact leavesEach_of_add addReg_writesFlags
  · exact leavesEach_of_add addImm5_writesFlags
  · exact leavesEach_of_add addi_writesFlags
  · exact leavesEach_of_sub sub_writesFlags
  · exact leavesEach_of_sub cmpReg_writesFlags
  · exact leavesEach_of_sub cmpImm5_writesFlags

/-- Settles O22: the flags of the forms that write them, the readers of each flag, and operands for both values of each. -/
theorem flagsWrittenAndRead : Obligations.FlagsWrittenAndRead := by
  refine ⟨?additions, ?subtractions, fun _ _ _ => exec_flags_same, readers_cy, readers_ov, readers_s, readers_z,
    fun _ => leavesEach_of_mem⟩
  case additions =>
    intro i s a b h
    obtain ⟨t, hx, hf⟩ := exec_addition_flags h
    exact ⟨t, hx, additionFlags_of_writeArith hf⟩
  case subtractions =>
    intro i s a b h
    obtain ⟨t, hx, hf⟩ := exec_subtraction_flags h
    exact ⟨t, hx, subtractionFlags_of_writeArith hf⟩

end Sys2Proof.Machine
end

section
/-! PROOFS of the family 10_state.md: a control transfer forces bit 0 of the `pc` to 0 (R25), and O33. -/

namespace Sys2Proof.Machine

/-- The mask of a control transfer has every bit of a word but bit 0. -/
theorem jumpMask_bit (k : Nat) : (0xFFFFFFFE#32).getLsbD k = (decide (1 ≤ k) && decide (k < 32)) := by
  have hmask : 0xFFFFFFFE#32 = ~~~1#32 := by decide
  rw [hmask, BitVec.getLsbD_not, BitVec.getLsbD_one, Bool.and_comm]
  cases k <;> simp

/-- The mask changes nothing in an even target. -/
theorem and_jumpMask_of_even {x : Word} (h : x.getLsbD 0 = false) : x &&& 0xFFFFFFFE#32 = x := by
  apply BitVec.eq_of_getLsbD_eq
  intro k hk
  rw [BitVec.getLsbD_and, jumpMask_bit]
  cases k with
  | zero => rw [h, Bool.false_and]
  | succ k => simp [hk]

/-- Bit 0 of a sum of two even words is 0. -/
theorem add_even {x y : Word} (hx : x.getLsbD 0 = false) (hy : y.getLsbD 0 = false) : (x + y).getLsbD 0 = false := by
  rw [BitVec.getLsbD_add (by decide), hx, hy, BitVec.carry_zero]; rfl

/-- An even displacement stands for an even word. -/
theorem signExtend_even {d : BitVec 9} (h : evenDisp d = true) : (d.signExtend 32).getLsbD 0 = false := by
  rw [BitVec.getLsbD_signExtend]
  simpa [evenDisp] using h

/-- Each row of Bcond is `branchOn` of its condition. -/
theorem exec_branch (c : Cond) (d : BitVec 9) (s : State) : exec (.branch c d) s = branchOn s c d := by
  cases c <;> rfl

/-- A taken Bcond completes at its target. -/
theorem exec_branch_taken {c : Cond} {s : State} (h : condHolds c s.flags = true) (d : BitVec 9) :
    exec (.branch c d) s = .next (s.jump (s.pc + d.signExtend 32)) := by
  rw [exec_branch, branchOn_next, if_pos h]; rfl

/-- Settles O33: the three kinds of transfer go through `State.jump`, whose mask leaves an even target as it is. -/
theorem controlTransferClearsBitZero : Obligations.ControlTransferClearsBitZero := by
  intro reg1 disp32 c disp9 s
  refine ⟨⟨_, rfl, rfl⟩, ⟨_, rfl, rfl⟩, fun hc => ⟨_, exec_branch_taken hc disp9, rfl, fun hd hpc => ?_⟩, jumpMask_bit⟩
  exact and_jumpMask_of_even (add_even hpc (signExtend_even hd))

end Sys2Proof.Machine
end

section
/-! PROOFS of the family 30_encoding.md: the row of an instruction gives back what its first halfword decided (R98), and its
length (R80). -/

namespace Sys2Proof

/-- What the first halfword of an instruction of a row decides (30_encoding.md R98); the Format XIV rows share it. -/
def Encoding.head : Encoding → Head
  | .addReg => .addReg
  | .addImm5 => .addImm5
  | .addi => .addi
  | .sub => .sub
  | .movReg => .movReg
  | .movImm5 => .movImm5
  | .movImm32 => .movImm32
  | .jmpReg => .jmpReg
  | .jmpDisp32 => .jmpDisp32
  | .cmpReg => .cmpReg
  | .cmpImm5 => .cmpImm5
  | .bcond => .bcond
  | .ldwDisp16 => .ldwDisp16
  | .stwDisp16 => .stwDisp16
  | .ldwDisp23 => .formatXIV
  | .stwDisp23 => .formatXIV

variable {i : Instr} {h : Head} {hw0 hw1 hw2 : Half} {hs rest : List Half}

/-! ### The instruction a head builds -/

@[simp] theorem branch_encoding (c : Cond) (d : BitVec 9) : (Instr.branch c d).encoding = .bcond := by
  cases c <;> rfl

/-- The instruction built for a head is of a row with that head. -/
@[simp] theorem build_encoding_head (h : Head) (hw0 hw1 hw2 : Half) : (h.build hw0 hw1 hw2).encoding.head = h := by
  cases h with
  | bcond => simp [Head.build, Encoding.head]
  | formatXIV => simp only [Head.build]; split <;> rfl
  | _ => rfl

/-- An instruction of one halfword has no operand in a later one. -/
theorem build_of_halfwords_one (hl : h.halfwords = 1) : h.build hw0 0#16 0#16 = h.build hw0 hw1 hw2 := by
  cases h with
  | addi | movImm32 | jmpDisp32 | ldwDisp16 | stwDisp16 | formatXIV => cases hl
  | _ => rfl

/-- An instruction of two halfwords has no operand in the third. -/
theorem build_of_halfwords_two (hl : h.halfwords = 2) : h.build hw0 hw1 0#16 = h.build hw0 hw1 hw2 := by
  cases h with
  | addi | ldwDisp16 | stwDisp16 => rfl
  | _ => cases hl

/-! ### What decoding an instruction says of its row -/

/-- The first halfword decides the head of the row, and the head how many halfwords are taken. -/
theorem head_of_decode (hd : decode (hw0 :: hs) = .ok i rest) :
    headOf hw0 = some i.encoding.head ∧ (hw0 :: hs).length = i.encoding.head.halfwords + rest.length := by
  obtain ⟨w, h, hh, ⟨hl, hw, rfl⟩ | ⟨hl, hw1, hw, -, rfl⟩ | ⟨hl, hw1, hw2, hw, -, rfl⟩⟩ := decode_ok.mp hd
  all_goals
    rw [build_encoding_head, hl, hw, (List.cons.inj hw).1]
    refine ⟨hh, ?_⟩
    simp only [List.length_cons]
    omega

/-- The operands stand in the fields of the instruction's own halfwords. -/
theorem build_of_decode (hd : decode [hw0, hw1, hw2] = .ok i rest) : i = i.encoding.head.build hw0 hw1 hw2 := by
  obtain ⟨w, h, -, ⟨hl, hw, rfl⟩ | ⟨hl, w1, hw, -, rfl⟩ | ⟨hl, w1, w2, hw, -, rfl⟩⟩ := decode_ok.mp hd
  · cases hw
    rw [build_encoding_head, build_of_halfwords_one hl]
  · cases hw
    rw [build_encoding_head, build_of_halfwords_two hl]
  · cases hw
    rw [build_encoding_head]

/-! ### Lengths -/

/-- The length of an instruction is that of its row. -/
theorem lengthBytes_eq_head (i : Instr) : i.lengthBytes = 2 * i.encoding.head.halfwords := by
  cases i <;> rfl

theorem halfwords_eq_one_iff (e : Encoding) : e.head.halfwords = 1 ↔
    e ∈ [.addReg, .addImm5, .sub, .movReg, .movImm5, .jmpReg, .cmpReg, .cmpImm5, .bcond] := by
  cases e <;> decide

theorem halfwords_eq_two_iff (e : Encoding) : e.head.halfwords = 2 ↔ e ∈ [.addi, .ldwDisp16, .stwDisp16] := by
  cases e <;> decide

theorem halfwords_eq_three_iff (e : Encoding) : e.head.halfwords = 3 ↔
    e ∈ [.movImm32, .jmpDisp32, .ldwDisp23, .stwDisp23] := by
  cases e <;> decide

/-- Settles O5: one first halfword has one head, the head has one number of halfwords, and the rows are listed by that number. -/
theorem instructionLengths : Obligations.InstructionLengths := by
  intro hw0 hs hs' i i' rest rest' hd hd'
  obtain ⟨hh, hlen⟩ := head_of_decode hd
  obtain ⟨hh', -⟩ := head_of_decode hd'
  have hsame : i.encoding.head = i'.encoding.head := Option.some.inj (hh.symm.trans hh')
  rw [← halfwords_eq_one_iff, ← halfwords_eq_two_iff, ← halfwords_eq_three_iff, lengthBytes_eq_head i,
    lengthBytes_eq_head i', ← hsame]
  omega

end Sys2Proof
end

section
/-! PROOFS of the family 30_encoding.md: the numbers the immediate operands stand for (R90 to R92). -/

namespace Sys2Proof.Machine

/-- Extending a field with its sign keeps its number. -/
theorem toInt_sext32 {w : Nat} (hw : w ≤ 32) (v : BitVec w) : (sext32 v).toInt = v.toInt :=
  BitVec.toInt_signExtend_of_le hw

/-- The number of a signed field lies in the range of its width. -/
theorem toInt_mem_range {w : Nat} (v : BitVec (w + 1)) : -2 ^ w ≤ v.toInt ∧ v.toInt ≤ 2 ^ w - 1 :=
  ⟨v.le_toInt, Int.le_sub_one_of_lt v.toInt_lt⟩

/-- The value of imm5 (R90). -/
theorem imm5Value_number (v : BitVec 5) : (imm5Value v).toInt = v.toInt ∧ -16 ≤ (imm5Value v).toInt ∧
    (imm5Value v).toInt ≤ 15 := by
  have hext : (imm5Value v).toInt = v.toInt := toInt_sext32 (by decide) v
  rw [hext]
  exact ⟨rfl, toInt_mem_range v⟩

/-- The value of imm16 (R91). -/
theorem imm16Value_number (v : BitVec 16) : (imm16Value v).toInt = v.toInt ∧ -32768 ≤ (imm16Value v).toInt ∧
    (imm16Value v).toInt ≤ 32767 := by
  have hext : (imm16Value v).toInt = v.toInt := toInt_sext32 (by decide) v
  rw [hext]
  exact ⟨rfl, toInt_mem_range v⟩

/-- The value of imm32: the third halfword above the second (R92). -/
theorem imm32Value_number (hw1 hw2 : Half) : (imm32Value (fieldImm32 hw1 hw2)).toNat = hw2.toNat * 65536 + hw1.toNat := by
  unfold imm32Value fieldImm32
  rw [BitVec.toNat_append, ← Nat.shiftLeft_add_eq_or_of_lt hw1.isLt, Nat.shiftLeft_eq]

variable {hw0 hw1 hw2 : Half} {rest : List Half}

/-- The three forms with an imm5 take it from `ins[4:0]` (R90). -/
theorem imm5_of_decode {imm5 : BitVec 5} {r : Reg} (hd : decode [hw0, hw1, hw2] = .ok (.addImm5 imm5 r) rest ∨
    decode [hw0, hw1, hw2] = .ok (.movImm5 imm5 r) rest ∨ decode [hw0, hw1, hw2] = .ok (.cmpImm5 imm5 r) rest) :
    imm5 = fieldImm5 hw0 := by
  obtain hd | hd | hd := hd
  · exact (Instr.addImm5.inj (build_of_decode hd)).1
  · exact (Instr.movImm5.inj (build_of_decode hd)).1
  · exact (Instr.cmpImm5.inj (build_of_decode hd)).1

/-- Settles O6: each immediate is its field of the halfwords, and its value the number of that field. -/
theorem immediateOperandValues : Obligations.ImmediateOperandValues := by
  intro hw0 hw1 hw2 rest
  refine ⟨fun imm5 r hd => ⟨imm5_of_decode hd, imm5Value_number imm5⟩,
    fun imm16 r1 r2 hd => ⟨(Instr.addi.inj (build_of_decode hd)).1, imm16Value_number imm16⟩, fun imm32 r hd => ?_⟩
  rw [(Instr.movImm32.inj (build_of_decode hd)).1]
  exact imm32Value_number hw1 hw2

end Sys2Proof.Machine
end

section
/-! PROOFS of the family 41_branch.md: the condition of each code and of each mnemonic (R150), and O31. -/

namespace Sys2Proof.Machine

/-! ### The conditions of more than one flag -/

theorem condHolds_nh_iff (f : Flags) : condHolds .nh f = true ↔ f.cy = true ∨ f.z = true := Bool.or_eq_true_iff

theorem condHolds_lt_iff (f : Flags) : condHolds .lt f = true ↔ f.s ≠ f.ov := bne_iff_ne

theorem condHolds_le_iff (f : Flags) : condHolds .le f = true ↔ f.s ≠ f.ov ∨ f.z = true :=
  Bool.or_eq_true_iff.trans (or_congr_left (condHolds_lt_iff f))

/-! ### Bit 3 of a code -/

/-- Bit 3 negates the condition of the three bits below it, but for BSA, which is not the negation of BR (R150). -/
theorem condHolds_bit3 {c : BitVec 3} (hc : c ≠ 0b101#3) (f : Flags) :
    condHolds (.ofCode (1#1 ++ c)) f = !condHolds (.ofCode (0#1 ++ c)) f := by
  obtain ⟨k⟩ := c
  fin_cases k
  on_goal 6 => exact absurd rfl hc
  all_goals rfl

/-- A code with bit 3 set is satisfied where the code without it is not. -/
theorem condHolds_bit3_iff {c : BitVec 3} (hc : c ≠ 0b101#3) {f : Flags} {p : Prop}
    (hp : condHolds (.ofCode (0#1 ++ c)) f = true ↔ p) : condHolds (.ofCode (1#1 ++ c)) f = true ↔ ¬p := by
  rw [condHolds_bit3 hc, Bool.not_eq_true', ← Bool.not_eq_true, hp]

/-- Settles O31: codes 0000 to 0111 and 1101 directly, the others as negations by bit 3; the mnemonics row by row. -/
theorem conditionCodeTable : Obligations.ConditionCodeTable := by
  refine ⟨fun f => ⟨.rfl, .rfl, .rfl, condHolds_nh_iff f, .rfl, rfl, condHolds_lt_iff f, condHolds_le_iff f,
    ?nv, ?nl, ?ne, ?h, ?p, .rfl, ?ge, ?gt⟩, rfl⟩
  case nv => simpa using condHolds_bit3_iff (c := 0b000#3) (p := f.ov = true) (by decide) .rfl
  case nl => simpa using condHolds_bit3_iff (c := 0b001#3) (p := f.cy = true) (by decide) .rfl
  case ne => simpa using condHolds_bit3_iff (c := 0b010#3) (p := f.z = true) (by decide) .rfl
  case h => simpa using condHolds_bit3_iff (c := 0b011#3) (by decide) (condHolds_nh_iff f)
  case p => simpa using condHolds_bit3_iff (c := 0b100#3) (p := f.s = true) (by decide) .rfl
  case ge => simpa using condHolds_bit3_iff (c := 0b110#3) (by decide) (condHolds_lt_iff f)
  case gt => simpa using condHolds_bit3_iff (c := 0b111#3) (by decide) (condHolds_le_iff f)

end Sys2Proof.Machine
end

section
/-! PROOFS of the encoding: the instructions row by row, the sixteen Bcond rows as one (41_branch.md R150), and the fields of the
halfwords an encoding is made of (30_encoding.md section 3). -/

namespace Sys2Proof

/-- The cases of an instruction, the sixteen rows of Bcond taken together. -/
theorem Instr.casesRows {P : Instr → Prop}
    (addReg : ∀ reg1 reg2, P (.addReg reg1 reg2))
    (addImm5 : ∀ imm5 reg2, P (.addImm5 imm5 reg2))
    (addi : ∀ imm16 reg1 reg2, P (.addi imm16 reg1 reg2))
    (sub : ∀ reg1 reg2, P (.sub reg1 reg2))
    (movReg : ∀ reg1 reg2, P (.movReg reg1 reg2))
    (movImm5 : ∀ imm5 reg2, P (.movImm5 imm5 reg2))
    (movImm32 : ∀ imm32 reg1, P (.movImm32 imm32 reg1))
    (jmpReg : ∀ reg1, P (.jmpReg reg1))
    (jmpDisp32 : ∀ disp32 reg1, P (.jmpDisp32 disp32 reg1))
    (cmpReg : ∀ reg1 reg2, P (.cmpReg reg1 reg2))
    (cmpImm5 : ∀ imm5 reg2, P (.cmpImm5 imm5 reg2))
    (ldwDisp16 : ∀ disp16 reg1 reg2, P (.ldwDisp16 disp16 reg1 reg2))
    (ldwDisp23 : ∀ disp23 reg1 reg3, P (.ldwDisp23 disp23 reg1 reg3))
    (stwDisp16 : ∀ reg2 disp16 reg1, P (.stwDisp16 reg2 disp16 reg1))
    (stwDisp23 : ∀ reg3 disp23 reg1, P (.stwDisp23 reg3 disp23 reg1))
    (branch : ∀ c disp9, P (.branch c disp9)) (i : Instr) : P i := by
  cases i with
  | addReg => exact addReg ..
  | addImm5 => exact addImm5 ..
  | addi => exact addi ..
  | sub => exact sub ..
  | movReg => exact movReg ..
  | movImm5 => exact movImm5 ..
  | movImm32 => exact movImm32 ..
  | jmpReg => exact jmpReg ..
  | jmpDisp32 => exact jmpDisp32 ..
  | cmpReg => exact cmpReg ..
  | cmpImm5 => exact cmpImm5 ..
  | ldwDisp16 => exact ldwDisp16 ..
  | ldwDisp23 => exact ldwDisp23 ..
  | stwDisp16 => exact stwDisp16 ..
  | stwDisp23 => exact stwDisp23 ..
  | bv d => exact branch .v d
  | bl d => exact branch .l d
  | be d => exact branch .e d
  | bnh d => exact branch .nh d
  | bn d => exact branch .n d
  | br d => exact branch .always d
  | blt d => exact branch .lt d
  | ble d => exact branch .le d
  | bnv d => exact branch .nv d
  | bnl d => exact branch .nl d
  | bne d => exact branch .ne d
  | bh d => exact branch .h d
  | bp d => exact branch .p d
  | bsa d => exact branch .sa d
  | bge d => exact branch .ge d
  | bgt d => exact branch .gt d

/-! ### Bcond as one row -/

/-- The code of a condition (41_branch.md R150). -/
def Cond.code : Cond → BitVec 4
  | .v => 0b0000#4
  | .l => 0b0001#4
  | .e => 0b0010#4
  | .nh => 0b0011#4
  | .n => 0b0100#4
  | .always => 0b0101#4
  | .lt => 0b0110#4
  | .le => 0b0111#4
  | .nv => 0b1000#4
  | .nl => 0b1001#4
  | .ne => 0b1010#4
  | .h => 0b1011#4
  | .p => 0b1100#4
  | .sa => 0b1101#4
  | .ge => 0b1110#4
  | .gt => 0b1111#4

@[simp] theorem ofCode_code (c : Cond) : Cond.ofCode c.code = c := by cases c <;> rfl

@[simp] theorem code_ofCode : ∀ c : BitVec 4, (Cond.ofCode c).code = c := by decide

@[simp] theorem branch_wellFormed (c : Cond) (d : BitVec 9) : (Instr.branch c d).wellFormed = evenDisp d := by
  cases c <;> rfl

@[simp] theorem encode_branch (c : Cond) (d : BitVec 9) : encode (.branch c d) = encodeBranch c.code d := by
  cases c <;> rfl

/-- The condition and the displacement of a Bcond. -/
def Instr.branchParts : Instr → Option (Cond × BitVec 9)
  | .bv d => some (.v, d)
  | .bl d => some (.l, d)
  | .be d => some (.e, d)
  | .bnh d => some (.nh, d)
  | .bn d => some (.n, d)
  | .br d => some (.always, d)
  | .blt d => some (.lt, d)
  | .ble d => some (.le, d)
  | .bnv d => some (.nv, d)
  | .bnl d => some (.nl, d)
  | .bne d => some (.ne, d)
  | .bh d => some (.h, d)
  | .bp d => some (.p, d)
  | .bsa d => some (.sa, d)
  | .bge d => some (.ge, d)
  | .bgt d => some (.gt, d)
  | _ => none

@[simp] theorem branchParts_branch (c : Cond) (d : BitVec 9) : (Instr.branch c d).branchParts = some (c, d) := by
  cases c <;> rfl

/-- A Bcond has one condition and one displacement. -/
theorem branch_inj {c c' : Cond} {d d' : BitVec 9} (h : Instr.branch c d = .branch c' d') : c = c' ∧ d = d' := by
  simpa using congrArg Instr.branchParts h

/-! ### Fields of the halfwords of an encoding -/

section Fields

variable (r2 r1 sub5 : BitVec 5) (op : BitVec 6) (x : BitVec 15) (y : BitVec 1)

@[simp] theorem fieldReg2_formatI : fieldReg2 (r2 ++ op ++ r1) = r2 := (fields_formatI r2 op r1).2.1

@[simp] theorem fieldReg1_formatI : fieldReg1 (r2 ++ op ++ r1) = r1 := (fields_formatI r2 op r1).2.2.1

/-- reg1 under eleven fixed bits (30_encoding.md section 2). -/
@[simp] theorem fieldReg1_append (p : BitVec 11) : fieldReg1 (p ++ r1) = r1 :=
  (extract_append_lower p r1 0 5 (by omega)).trans (extract_all r1)

@[simp] theorem fieldImm5_formatI : fieldImm5 (r2 ++ op ++ r1) = r1 := (fields_formatI r2 op r1).2.2.2.1

@[simp] theorem fieldDisp16_append : fieldDisp16 (x ++ y) = x ++ 0#1 :=
  congrArg (· ++ 0#1) ((extract_append_upper x y 0 15).trans (extract_all x))

@[simp] theorem fieldReg3_formatXIV : fieldReg3 (r2 ++ op ++ sub5) = r2 := fieldReg2_formatI ..

@[simp] theorem fieldSub5_formatXIV : fieldSub5 (r2 ++ op ++ sub5) = sub5 := fieldReg1_formatI ..

/-- The field of disp23 in the second halfword stands where the opcode stands in the first. -/
theorem fieldDisp23_formatXIV (hw2 : Half) : fieldDisp23 (r2 ++ op ++ sub5) hw2 = hw2 ++ op ++ 0#1 :=
  congrArg (hw2 ++ · ++ 0#1) (fields_formatI r2 op sub5).1

/-- The bit below a displacement of fifteen bits. -/
theorem getLsbD_append_one : (x ++ y).getLsbD 0 = y.getLsbD 0 := by
  rw [BitVec.getLsbD_append, if_pos Nat.one_pos]

end Fields

/-! ### Displacements put together again -/

/-- The fields of a Bcond give its even disp9 back (30_encoding.md R93). -/
theorem disp9_split {d : BitVec 9} (h : evenDisp d = true) : d.extractLsb' 4 5 ++ d.extractLsb' 1 3 ++ 0#1 = d :=
  (congrArg (· ++ 0#1) (append_extract d 1 5 3)).trans (even_split d h)

/-- The fields of Format XIV give an even disp23 back (30_encoding.md R95). -/
theorem disp23_split {d : BitVec 23} (h : evenDisp d = true) : d.extractLsb' 7 16 ++ d.extractLsb' 1 6 ++ 0#1 = d :=
  (congrArg (· ++ 0#1) (append_extract d 1 16 6)).trans (even_split d h)

/-- The fields of JMP (2) give an even disp32 back (30_encoding.md R96). -/
theorem disp32_split {d : BitVec 32} (h : evenDisp d = true) : d.extractLsb' 16 16 ++ d.extractLsb' 1 15 ++ 0#1 = d :=
  (congrArg (· ++ 0#1) (append_extract d 1 16 15)).trans (even_split d h)

/-- The two halfwords of an imm32 (30_encoding.md R92). -/
theorem imm32_split (v : BitVec 32) : v.extractLsb' 16 16 ++ v.extractLsb' 0 16 = v :=
  (append_extract v 0 16 16).trans (extract_all v)

end Sys2Proof
end

section
/-! PROOFS of the encoding: decoding an encoding gives the instruction back (30_encoding.md R97, R98), O2 and O1. -/

namespace Sys2Proof

/-! ### The row a halfword of Format I, II or III selects -/

theorem headOf_formatI {r2 r1 : BitVec 5} {op : BitVec 6} {h : Head} (hb : headBits h (op.extractLsb' 2 4) op r2) :
    headOf (r2 ++ op ++ r1) = some h := by
  obtain ⟨hop, hr2, -, -, hop4⟩ := fields_formatI r2 op r1
  rw [headOf_iff, hop, hr2, hop4]
  exact hb

theorem headOf_formatIII (x : BitVec 5) (w : BitVec 3) (z : BitVec 4) :
    headOf (x ++ 0b1011#4 ++ w ++ z) = some .bcond :=
  headOf_iff.mpr (fields_formatIII x 0b1011#4 w z).1

/-! ### Decoding by length -/

variable {hw0 hw1 hw2 : Half} {h : Head} {i : Instr} {rest : List Half}

theorem decode_one (hh : headOf hw0 = some h) (hl : h.halfwords = 1) (hb : h.build hw0 0#16 0#16 = i) :
    decode (hw0 :: rest) = .ok i rest :=
  decode_ok.mpr ⟨hw0, h, hh, .inl ⟨hl, rfl, hb.symm⟩⟩

theorem decode_two (hh : headOf hw0 = some h) (hl : h.halfwords = 2) (h2 : h.secondOk hw1 = true)
    (hb : h.build hw0 hw1 0#16 = i) : decode (hw0 :: hw1 :: rest) = .ok i rest :=
  decode_ok.mpr ⟨hw0, h, hh, .inr (.inl ⟨hl, hw1, rfl, h2, hb.symm⟩)⟩

theorem decode_three (hh : headOf hw0 = some h) (hl : h.halfwords = 3) (h2 : h.secondOk hw1 = true)
    (hb : h.build hw0 hw1 hw2 = i) : decode (hw0 :: hw1 :: hw2 :: rest) = .ok i rest :=
  decode_ok.mpr ⟨hw0, h, hh, .inr (.inr ⟨hl, hw1, hw2, rfl, h2, hb.symm⟩)⟩

/-! ### Rows that share a format -/

/-- A Bcond of every condition is read back. -/
theorem decode_encodeBranch (c : Cond) {d : BitVec 9} (hd : evenDisp d = true) (rest : List Half) :
    decode (encodeBranch c.code d ++ rest) = .ok (.branch c d) rest := by
  obtain ⟨-, hcond, hdisp⟩ := fields_formatIII (d.extractLsb' 4 5) 0b1011#4 (d.extractLsb' 1 3) c.code
  refine decode_one (headOf_formatIII _ _ _) rfl ?_
  show Instr.branch (.ofCode (fieldCond _)) (fieldDisp9 _) = _
  rw [hcond, hdisp, ofCode_code, disp9_split hd]

/-- The test of the second halfword of Format XIV: one of its two sub-opcodes (30_encoding.md R101). -/
theorem secondOk_formatXIV_iff {hw1 : Half} :
    Head.formatXIV.secondOk hw1 = true ↔ fieldSub5 hw1 = 0b01001#5 ∨ fieldSub5 hw1 = 0b01111#5 := by
  simp [Head.secondOk]

/-- The displacement of Format XIV is read back. -/
theorem fieldDisp23_encode {d : BitVec 23} (hd : evenDisp d = true) (r3 sub5 : BitVec 5) :
    fieldDisp23 (r3 ++ d.extractLsb' 1 6 ++ sub5) (d.extractLsb' 7 16) = d := by
  rw [fieldDisp23_formatXIV, disp23_split hd]

/-- The displacement of JMP (2) is read back. -/
theorem fieldDisp32_encode {d : BitVec 32} (hd : evenDisp d = true) :
    fieldDisp32 (d.extractLsb' 1 15 ++ 0#1) (d.extractLsb' 16 16) = d := by
  have hlow : (d.extractLsb' 1 15 ++ 0#1).extractLsb' 1 15 = d.extractLsb' 1 15 :=
    (extract_append_upper _ 0#1 0 15).trans (extract_all _)
  rw [fieldDisp32, hlow, disp32_split hd]

/-- reg2 of MOV (1) and MOV (2) is not r0 (30_encoding.md R100). -/
theorem fieldOfReg_ne_zero {r : Reg} (h : (r != 0) = true) : fieldOfReg r ≠ 0#5 :=
  fun e => bne_iff_ne.mp h (congrArg BitVec.toFin e)

/-- Settles O2, row by row: the first halfword selects the row, its fixed bits are as they must be, and each operand's fields give
the operand back. -/
theorem decodeOfEncode : Obligations.DecodeOfEncode := by
  intro i rest
  cases i using Instr.casesRows with
  | addReg => exact fun _ => decode_one (h := .addReg) (headOf_formatI rfl) rfl (by simp [Head.build, regOfField_fieldOfReg])
  | addImm5 => exact fun _ => decode_one (h := .addImm5) (headOf_formatI rfl) rfl (by simp [Head.build, regOfField_fieldOfReg])
  | addi => exact fun _ => decode_two (h := .addi) (headOf_formatI rfl) rfl rfl (by simp [Head.build, regOfField_fieldOfReg])
  | sub => exact fun _ => decode_one (h := .sub) (headOf_formatI rfl) rfl (by simp [Head.build, regOfField_fieldOfReg])
  | movReg reg1 reg2 =>
    intro hw
    refine decode_one (h := .movReg) (headOf_formatI ⟨rfl, fieldOfReg_ne_zero hw⟩) rfl ?_
    simp [Head.build, regOfField_fieldOfReg]
  | movImm5 imm5 reg2 =>
    intro hw
    refine decode_one (h := .movImm5) (headOf_formatI ⟨rfl, fieldOfReg_ne_zero hw⟩) rfl ?_
    simp [Head.build, regOfField_fieldOfReg]
  | movImm32 imm32 reg1 =>
    refine fun _ => decode_three (h := .movImm32) (headOf_formatI (r2 := 0#5) (op := 0b110001#6) ⟨rfl, rfl⟩) rfl rfl ?_
    simp [Head.build, fieldImm32, imm32_split, regOfField_fieldOfReg]
  | jmpReg reg1 =>
    refine fun _ => decode_one (h := .jmpReg) (headOf_formatI (r2 := 0#5) (op := 0b000011#6) ⟨rfl, rfl⟩) rfl ?_
    simp [Head.build, regOfField_fieldOfReg]
  | jmpDisp32 disp32 reg1 =>
    intro hw
    refine decode_three (h := .jmpDisp32) (headOf_formatI (r2 := 0#5) (op := 0b110111#6) ⟨rfl, rfl⟩) rfl ?_ ?_
    · rw [Head.secondOk, getLsbD_append_one]; rfl
    · simp [Head.build, fieldDisp32_encode hw, regOfField_fieldOfReg]
  | cmpReg => exact fun _ => decode_one (h := .cmpReg) (headOf_formatI rfl) rfl (by simp [Head.build, regOfField_fieldOfReg])
  | cmpImm5 => exact fun _ => decode_one (h := .cmpImm5) (headOf_formatI rfl) rfl (by simp [Head.build, regOfField_fieldOfReg])
  | ldwDisp16 disp16 reg1 reg2 =>
    intro hw
    refine decode_two (h := .ldwDisp16) (headOf_formatI rfl) rfl ?_ ?_
    · rw [Head.secondOk, getLsbD_append_one]; rfl
    · simp [Head.build, even_split disp16 hw, regOfField_fieldOfReg]
  | ldwDisp23 disp23 reg1 reg3 =>
    intro hw
    refine decode_three (h := .formatXIV) (headOf_formatI (r2 := 0#5) (op := 0b111100#6) ⟨rfl, rfl⟩) rfl 
      (secondOk_formatXIV_iff.mpr (.inl (fieldSub5_formatXIV ..))) ?_
    simp [Head.build, fieldDisp23_encode hw, regOfField_fieldOfReg]
  | stwDisp16 reg2 disp16 reg1 =>
    intro hw
    refine decode_two (h := .stwDisp16) (headOf_formatI rfl) rfl ?_ ?_
    · rw [Head.secondOk, getLsbD_append_one]; rfl
    · simp [Head.build, even_split disp16 hw, regOfField_fieldOfReg]
  | stwDisp23 reg3 disp23 reg1 =>
    intro hw
    refine decode_three (h := .formatXIV) (headOf_formatI (r2 := 0#5) (op := 0b111100#6) ⟨rfl, rfl⟩) rfl 
      (secondOk_formatXIV_iff.mpr (.inr (fieldSub5_formatXIV ..))) ?_
    simp [Head.build, fieldDisp23_encode hw, regOfField_fieldOfReg]
  | branch c d => exact fun hw => encode_branch c d ▸ decode_encodeBranch c (by simpa using hw) rest

end Sys2Proof
end

section
/-! PROOFS of the encoding: what the decoder reads is an encoding (30_encoding.md R98, R105), O3. -/

namespace Sys2Proof

/-! ### Halfwords put together again from their fields -/

variable {hw0 hw1 hw2 : Half} {op : BitVec 6} {h : Head}

/-- A halfword of Format I or II with its opcode written out. -/
theorem formatI_of_op (hop : fieldOp6 hw0 = op) : fieldReg2 hw0 ++ op ++ fieldReg1 hw0 = hw0 :=
  hop ▸ join_formatI hw0

/-- A halfword whose field reg2 is fixed at 0, with its eleven fixed bits written out. -/
theorem formatI_of_fixed {p : BitVec 11} (hop : fieldOp6 hw0 = op ∧ fieldReg2 hw0 = 0#5) (hp : 0#5 ++ op = p) :
    p ++ fieldReg1 hw0 = hw0 := by
  rw [← hp, ← hop.2]
  exact formatI_of_op hop.1

/-- A second halfword with a fixed bit 0 (30_encoding.md R94, R96). -/
theorem join_bit0 {b : Bool} (hb : hw1.getLsbD 0 = b) : hw1.extractLsb' 1 15 ++ BitVec.ofBool b = hw1 := by
  rw [← hb, ← extract_one]
  exact (append_extract hw1 0 15 1).trans (extract_all hw1)

/-- The second halfword of Format XIV with its sub-opcode written out. -/
theorem formatXIV_of_sub {sub5 : BitVec 5} (hs : fieldSub5 hw1 = sub5) :
    fieldReg3 hw1 ++ hw1.extractLsb' 5 6 ++ sub5 = hw1 :=
  hs ▸ join_formatI hw1

/-! ### The parts of a displacement an encoding uses -/

theorem fieldDisp9_parts (hw0 : Half) : (fieldDisp9 hw0).extractLsb' 4 5 = hw0.extractLsb' 11 5 ∧
    (fieldDisp9 hw0).extractLsb' 1 3 = hw0.extractLsb' 4 3 :=
  ⟨(extract_append_upper _ 0#1 3 5).trans ((extract_append_upper _ _ 0 5).trans (extract_all _)),
    (extract_append_upper _ 0#1 0 3).trans ((extract_append_lower _ _ 0 3 (by omega)).trans (extract_all _))⟩

theorem fieldDisp16_part (hw1 : Half) : (fieldDisp16 hw1).extractLsb' 1 15 = hw1.extractLsb' 1 15 :=
  (extract_append_upper _ 0#1 0 15).trans (extract_all _)

theorem fieldDisp23_parts (hw1 hw2 : Half) : (fieldDisp23 hw1 hw2).extractLsb' 7 16 = hw2 ∧
    (fieldDisp23 hw1 hw2).extractLsb' 1 6 = hw1.extractLsb' 5 6 :=
  ⟨(extract_append_upper _ 0#1 6 16).trans ((extract_append_upper hw2 _ 0 16).trans (extract_all hw2)),
    (extract_append_upper _ 0#1 0 6).trans ((extract_append_lower hw2 _ 0 6 (by omega)).trans (extract_all _))⟩

theorem fieldDisp32_parts (hw1 hw2 : Half) : (fieldDisp32 hw1 hw2).extractLsb' 16 16 = hw2 ∧
    (fieldDisp32 hw1 hw2).extractLsb' 1 15 = hw1.extractLsb' 1 15 :=
  ⟨(extract_append_upper _ 0#1 15 16).trans ((extract_append_upper hw2 _ 0 16).trans (extract_all hw2)),
    (extract_append_upper _ 0#1 0 15).trans ((extract_append_lower hw2 _ 0 15 (by omega)).trans (extract_all _))⟩

theorem fieldImm32_parts (hw1 hw2 : Half) : (fieldImm32 hw1 hw2).extractLsb' 0 16 = hw1 ∧
    (fieldImm32 hw1 hw2).extractLsb' 16 16 = hw2 :=
  ⟨(extract_append_lower hw2 hw1 0 16 (by omega)).trans (extract_all hw1),
    (extract_append_upper hw2 hw1 0 16).trans (extract_all hw2)⟩

/-! ### The instruction built is well formed, and its encoding is the halfwords it was built from -/

/-- `i` is a well-formed instruction whose encoding is `hs`. -/
def IsEncoded (i : Instr) (hs : List Half) : Prop := i.wellFormed = true ∧ encode i = hs

/-- Bcond: the displacement's two fields and the condition (30_encoding.md R85, R93). -/
theorem isEncoded_bcond (hop : fieldOp4 hw0 = 0b1011#4) : IsEncoded (Head.bcond.build hw0 hw1 hw2) [hw0] := by
  obtain ⟨hhigh, hlow⟩ := fieldDisp9_parts hw0
  refine ⟨(branch_wellFormed ..).trans (even_append _), (encode_branch ..).trans (congrArg (fun w => [w]) ?_)⟩
  rw [hhigh, hlow, code_ofCode, ← hop]
  exact join_formatIII hw0

theorem build_load23 (hs : fieldSub5 hw1 = 0b01001#5) : Head.formatXIV.build hw0 hw1 hw2 =
    .ldwDisp23 (fieldDisp23 hw1 hw2) (regOfField (fieldReg1 hw0)) (regOfField (fieldReg3 hw1)) := if_pos hs

theorem build_store23 (hs : fieldSub5 hw1 ≠ 0b01001#5) : Head.formatXIV.build hw0 hw1 hw2 =
    .stwDisp23 (regOfField (fieldReg3 hw1)) (fieldDisp23 hw1 hw2) (regOfField (fieldReg1 hw0)) := if_neg hs

/-- Format XIV: the sub-opcode tells LD.W (2) from ST.W (2) (30_encoding.md R89, R95). -/
theorem isEncoded_formatXIV (hb : fieldOp6 hw0 = 0b111100#6 ∧ fieldReg2 hw0 = 0#5)
    (h2 : Head.formatXIV.secondOk hw1 = true) : IsEncoded (Head.formatXIV.build hw0 hw1 hw2) [hw0, hw1, hw2] := by
  obtain ⟨hhigh, hlow⟩ := fieldDisp23_parts hw1 hw2
  have hsub := secondOk_formatXIV_iff.mp h2
  by_cases hs : fieldSub5 hw1 = 0b01001#5
  · rw [build_load23 hs, IsEncoded, encode, hhigh, hlow]
    exact ⟨even_append _, congrArg₂ (fun p q => [p, q, hw2]) (formatI_of_fixed hb rfl) (formatXIV_of_sub hs)⟩
  · rw [build_store23 hs, IsEncoded, encode, hhigh, hlow]
    exact ⟨even_append _, congrArg₂ (fun p q => [p, q, hw2]) (formatI_of_fixed hb rfl)
      (formatXIV_of_sub (hsub.resolve_left hs))⟩

/-- Every row: the operands are put back into the fields they were taken from. -/
theorem isEncoded_build (hh : headOf hw0 = some h) (h2 : h.secondOk hw1 = true) :
    IsEncoded (h.build hw0 hw1 hw2) ([hw0, hw1, hw2].take h.halfwords) := by
  have hb := headOf_iff.mp hh
  cases h with
  | addReg => exact ⟨rfl, congrArg (fun w => [w]) (formatI_of_op hb)⟩
  | addImm5 => exact ⟨rfl, congrArg (fun w => [w]) (formatI_of_op hb)⟩
  | addi => exact ⟨rfl, congrArg (fun w => [w, hw1]) (formatI_of_op hb)⟩
  | sub => exact ⟨rfl, congrArg (fun w => [w]) (formatI_of_op hb)⟩
  | movReg => exact ⟨bne_iff_ne.mpr fun e => hb.2 (congrArg fieldOfReg e), congrArg (fun w => [w]) (formatI_of_op hb.1)⟩
  | movImm5 => exact ⟨bne_iff_ne.mpr fun e => hb.2 (congrArg fieldOfReg e), congrArg (fun w => [w]) (formatI_of_op hb.1)⟩
  | movImm32 =>
    obtain ⟨hlow, hhigh⟩ := fieldImm32_parts hw1 hw2
    refine ⟨rfl, ?_⟩
    rw [Head.build, encode, hlow, hhigh]
    exact congrArg (fun w => [w, hw1, hw2]) (formatI_of_fixed hb rfl)
  | jmpReg => exact ⟨rfl, congrArg (fun w => [w]) (formatI_of_fixed hb rfl)⟩
  | jmpDisp32 =>
    obtain ⟨hhigh, hlow⟩ := fieldDisp32_parts hw1 hw2
    refine ⟨even_append _, ?_⟩
    rw [Head.build, encode, hhigh, hlow]
    exact congrArg₂ (fun p q => [p, q, hw2]) (formatI_of_fixed hb rfl) (join_bit0 (Bool.not_eq_true' _ ▸ h2))
  | cmpReg => exact ⟨rfl, congrArg (fun w => [w]) (formatI_of_op hb)⟩
  | cmpImm5 => exact ⟨rfl, congrArg (fun w => [w]) (formatI_of_op hb)⟩
  | bcond => exact isEncoded_bcond hb
  | ldwDisp16 =>
    refine ⟨even_append _, ?_⟩
    rw [Head.build, encode, fieldDisp16_part]
    exact congrArg₂ (fun p q => [p, q]) (formatI_of_op hb) (join_bit0 h2)
  | stwDisp16 =>
    refine ⟨even_append _, ?_⟩
    rw [Head.build, encode, fieldDisp16_part]
    exact congrArg₂ (fun p q => [p, q]) (formatI_of_op hb) (join_bit0 h2)
  | formatXIV => exact isEncoded_formatXIV hb h2

/-- A row of one halfword asks nothing of a second. -/
theorem secondOk_of_halfwords_one (hl : h.halfwords = 1) (hw1 : Half) : h.secondOk hw1 = true := by
  cases h with
  | addi | movImm32 | jmpDisp32 | ldwDisp16 | stwDisp16 | formatXIV => cases hl
  | _ => rfl

/-- Settles O3: an instruction read was built by a row from the halfwords it takes, and that row's encoding is those. -/
theorem encodeOfDecode : Obligations.EncodeOfDecode := by
  intro hs i rest hd
  obtain ⟨hw0, h, hh, ⟨hl, rfl, rfl⟩ | ⟨hl, hw1, rfl, h2, rfl⟩ | ⟨hl, hw1, hw2, rfl, h2, rfl⟩⟩ := decode_ok.mp hd
  · obtain ⟨hwf, henc⟩ := isEncoded_build (hw2 := 0#16) hh (secondOk_of_halfwords_one hl 0#16)
    exact ⟨hwf, by rw [henc, hl]; rfl⟩
  · obtain ⟨hwf, henc⟩ := isEncoded_build (hw2 := 0#16) hh h2
    exact ⟨hwf, by rw [henc, hl]; rfl⟩
  · obtain ⟨hwf, henc⟩ := isEncoded_build (hw2 := hw2) hh h2
    exact ⟨hwf, by rw [henc, hl]; rfl⟩

/-! ### Byte images -/

/-- The byte image of a well-formed instruction decodes to it and leaves nothing over. -/
theorem decodeBytes_of_encodeBytes {i : Instr} {bs : List Byte} (hw : i.wellFormed = true) (hb : encodeBytes i = bs) :
    decodeBytes bs = .ok i [] := by
  rw [← hb, decodeBytes, encodeBytes, halvesOfBytes_bytesOfHalves, ← List.append_nil (encode i)]
  exact decodeOfEncode i [] hw

/-- Settles O1: each of the twelve byte images is that of its instruction. -/
theorem specWordsDecode : Obligations.SpecWordsDecode := by
  refine ⟨?_, ?_, ?_, ?_, ?_, ?_, ?_, ?_, ?_, ?_, ?_, ?_⟩
  all_goals exact decodeBytes_of_encodeBytes (by decide) (by decide)

end Sys2Proof
end

section
/-! PROOFS of the encoding: the masks and matches of the opcode map (30_encoding.md R97) say the same as the tests of the decoder
(R98), O4. -/

namespace Sys2Proof

/-! ### A mask is a field -/

/-- Masking all but one field and comparing is comparing the field. -/
theorem and_fieldMask_iff {n k w : Nat} (hw : k + w ≤ n) (x : BitVec n) (v : BitVec w) :
    x &&& (BitVec.allOnes w).setWidth n <<< k = v.setWidth n <<< k ↔ x.extractLsb' k w = v := by
  constructor
  · intro h
    ext i hi
    have hbit := congrArg (fun y => y.getLsbD (k + i)) h
    simp only [BitVec.getLsbD_and, BitVec.getLsbD_shiftLeft, BitVec.getLsbD_setWidth, BitVec.getLsbD_allOnes,
      Nat.add_sub_cancel_left, hi, show k + i < n by omega, show ¬k + i < k by omega, show i < n by omega] at hbit
    simpa [hi] using hbit
  · rintro rfl
    ext j hj
    rw [BitVec.getElem_and, BitVec.getElem_shiftLeft, BitVec.getElem_shiftLeft]
    by_cases hk : j < k
    · simp [hk]
    · have hsum : k + (j - k) = j := by omega
      simp [hk, hsum, BitVec.getLsbD_eq_getElem hj, Bool.and_comm]

/-- Two joined values are equal where their parts are. -/
theorem append_eq_append_iff {a b : Nat} {x x' : BitVec a} {y y' : BitVec b} : x ++ y = x' ++ y' ↔ x = x' ∧ y = y' := by
  refine ⟨fun h => ⟨?_, ?_⟩, fun ⟨hx, hy⟩ => hx ▸ hy ▸ rfl⟩
  · have hup := congrArg (fun v => v.extractLsb' (b + 0) a) h
    simpa only [extract_append_upper, extract_all] using hup
  · have hlow := congrArg (fun v => v.extractLsb' 0 b) h
    simpa only [extract_append_lower x y 0 b (by omega), extract_append_lower x' y' 0 b (by omega), extract_all] using hlow

/-! ### A row, halfword by halfword -/

/-- The bits of a mask or a match that stand in the second halfword. -/
def half1 (ins : BitVec 48) : Half := ins.extractLsb' 16 16

/-- The bits of a mask or a match that stand in the first halfword. -/
def half0 (ins : BitVec 48) : Half := ins.extractLsb' 0 16

/-- No row fixes a bit of the third halfword. -/
theorem row_halves (e : Encoding) : e.row.mask = 0#16 ++ half1 e.row.mask ++ half0 e.row.mask ∧
    e.row.pattern = 0#16 ++ half1 e.row.pattern ++ half0 e.row.pattern := by
  cases e <;> exact ⟨rfl, rfl⟩

theorem selects_iff_halves (e : Encoding) (hw0 hw1 hw2 : Half) : e.selects (hw2 ++ hw1 ++ hw0) = true ↔
    hw1 &&& half1 e.row.mask = half1 e.row.pattern ∧ hw0 &&& half0 e.row.mask = half0 e.row.pattern ∧
      (e.row.reg2NotZero = true → fieldReg2 hw0 ≠ 0#5) := by
  obtain ⟨hm, hp⟩ := row_halves e
  have hmask : hw2 ++ hw1 ++ hw0 &&& e.row.mask = e.row.pattern ↔
      hw1 &&& half1 e.row.mask = half1 e.row.pattern ∧ hw0 &&& half0 e.row.mask = half0 e.row.pattern := by
    conv_lhs => rw [hm, hp, BitVec.and_append, BitVec.and_append, append_eq_append_iff, append_eq_append_iff]
    simp
  have hreg2 : (hw2 ++ hw1 ++ hw0).extractLsb' 11 5 = fieldReg2 hw0 :=
    extract_append_lower (hw2 ++ hw1) hw0 11 5 (by omega)
  rw [Encoding.selects, Bool.and_eq_true, beq_iff_eq, hmask, hreg2, and_assoc]
  cases e.row.reg2NotZero <;> simp

/-! ### The fields the masks stand for -/

theorem and_op6_iff (hw0 : Half) (op : BitVec 6) :
    hw0 &&& 0x07E0#16 = op.setWidth 16 <<< 5 ↔ fieldOp6 hw0 = op := and_fieldMask_iff (k := 5) (by omega) hw0 op

theorem and_op4_iff (hw0 : Half) (op : BitVec 4) :
    hw0 &&& 0x0780#16 = op.setWidth 16 <<< 7 ↔ fieldOp4 hw0 = op := and_fieldMask_iff (k := 7) (by omega) hw0 op

theorem and_op6_reg2_iff (hw0 : Half) (op : BitVec 6) :
    hw0 &&& 0xFFE0#16 = op.setWidth 16 <<< 5 ↔ fieldOp6 hw0 = op ∧ fieldReg2 hw0 = 0#5 := by
  have hjoin : fieldReg2 hw0 ++ fieldOp6 hw0 = hw0.extractLsb' 5 11 := append_extract hw0 5 5 6
  have hpat : op.setWidth 16 <<< 5 = (0#5 ++ op).setWidth 16 <<< 5 := by
    revert op; decide
  rw [hpat, and_comm, ← append_eq_append_iff, hjoin]
  exact and_fieldMask_iff (k := 5) (by omega) hw0 (0#5 ++ op)

/-- The first halfword of a row selects the row's head. -/
theorem firstHalf_iff (e : Encoding) (hw0 : Half) : (hw0 &&& half0 e.row.mask = half0 e.row.pattern ∧
    (e.row.reg2NotZero = true → fieldReg2 hw0 ≠ 0#5)) ↔ headOf hw0 = some e.head := by
  rw [headOf_iff]
  cases e with
  | addReg => exact (and_iff_left Bool.noConfusion).trans (and_op6_iff hw0 0b001110#6)
  | addImm5 => exact (and_iff_left Bool.noConfusion).trans (and_op6_iff hw0 0b010010#6)
  | addi => exact (and_iff_left Bool.noConfusion).trans (and_op6_iff hw0 0b110000#6)
  | sub => exact (and_iff_left Bool.noConfusion).trans (and_op6_iff hw0 0b001101#6)
  | movReg => exact and_congr (and_op6_iff hw0 0b000000#6) (forall_prop_of_true rfl)
  | movImm5 => exact and_congr (and_op6_iff hw0 0b010000#6) (forall_prop_of_true rfl)
  | movImm32 => exact (and_iff_left Bool.noConfusion).trans (and_op6_reg2_iff hw0 0b110001#6)
  | jmpReg => exact (and_iff_left Bool.noConfusion).trans (and_op6_reg2_iff hw0 0b000011#6)
  | jmpDisp32 => exact (and_iff_left Bool.noConfusion).trans (and_op6_reg2_iff hw0 0b110111#6)
  | cmpReg => exact (and_iff_left Bool.noConfusion).trans (and_op6_iff hw0 0b001111#6)
  | cmpImm5 => exact (and_iff_left Bool.noConfusion).trans (and_op6_iff hw0 0b010011#6)
  | bcond => exact (and_iff_left Bool.noConfusion).trans (and_op4_iff hw0 0b1011#4)
  | ldwDisp16 => exact (and_iff_left Bool.noConfusion).trans (and_op6_iff hw0 0b111001#6)
  | stwDisp16 => exact (and_iff_left Bool.noConfusion).trans (and_op6_iff hw0 0b111011#6)
  | ldwDisp23 => exact (and_iff_left Bool.noConfusion).trans (and_op6_reg2_iff hw0 0b111100#6)
  | stwDisp23 => exact (and_iff_left Bool.noConfusion).trans (and_op6_reg2_iff hw0 0b111100#6)

/-- The bits a row fixes in the second halfword (30_encoding.md R101). -/
def Encoding.secondBits (e : Encoding) (hw1 : Half) : Prop :=
  match e with
  | .jmpDisp32 => hw1.getLsbD 0 = false
  | .ldwDisp16 => hw1.getLsbD 0 = true
  | .stwDisp16 => hw1.getLsbD 0 = true
  | .ldwDisp23 => fieldSub5 hw1 = 0b01001#5
  | .stwDisp23 => fieldSub5 hw1 = 0b01111#5
  | _ => True

theorem and_bit0_iff (hw1 : Half) (b : Bool) :
    hw1 &&& 0x0001#16 = (BitVec.ofBool b).setWidth 16 <<< 0 ↔ hw1.getLsbD 0 = b := by
  refine (and_fieldMask_iff (k := 0) (w := 1) (by omega) hw1 (.ofBool b)).trans ?_
  rw [extract_one]
  cases hw1.getLsbD 0 <;> cases b <;> decide

theorem and_sub5_iff (hw1 : Half) (sub5 : BitVec 5) :
    hw1 &&& 0x001F#16 = sub5.setWidth 16 <<< 0 ↔ fieldSub5 hw1 = sub5 := and_fieldMask_iff (k := 0) (by omega) hw1 sub5

theorem secondHalf_iff (e : Encoding) (hw1 : Half) :
    hw1 &&& half1 e.row.mask = half1 e.row.pattern ↔ e.secondBits hw1 := by
  cases e with
  | jmpDisp32 => exact and_bit0_iff hw1 false
  | ldwDisp16 => exact and_bit0_iff hw1 true
  | stwDisp16 => exact and_bit0_iff hw1 true
  | ldwDisp23 => exact and_sub5_iff hw1 0b01001#5
  | stwDisp23 => exact and_sub5_iff hw1 0b01111#5
  | _ => exact iff_of_true BitVec.and_zero trivial

/-- A row is selected exactly where the first halfword decides its head and the second has its fixed bits. -/
theorem selects_iff (e : Encoding) (hw0 hw1 hw2 : Half) :
    e.selects (hw2 ++ hw1 ++ hw0) = true ↔ headOf hw0 = some e.head ∧ e.secondBits hw1 := by
  rw [selects_iff_halves, secondHalf_iff, firstHalf_iff, and_comm]

/-! ### What the decoder reads from three halfwords -/

theorem halfwords_cases (h : Head) : h.halfwords = 1 ∨ h.halfwords = 2 ∨ h.halfwords = 3 := by
  cases h <;> decide

/-- Three halfwords are enough for every row. -/
theorem decode_three_iff {hw0 hw1 hw2 : Half} {i : Instr} {rest : List Half} : decode [hw0, hw1, hw2] = .ok i rest ↔
    ∃ h, headOf hw0 = some h ∧ h.secondOk hw1 = true ∧ i = h.build hw0 hw1 hw2 ∧ rest = [hw0, hw1, hw2].drop h.halfwords := by
  rw [decode_ok]
  constructor
  · rintro ⟨w, h, hh, ⟨hl, hw, rfl⟩ | ⟨hl, w1, hw, h2, rfl⟩ | ⟨hl, w1, w2, hw, h2, rfl⟩⟩
    · cases hw
      exact ⟨h, hh, secondOk_of_halfwords_one hl _, build_of_halfwords_one hl, by rw [hl]; rfl⟩
    · cases hw
      exact ⟨h, hh, h2, build_of_halfwords_two hl, by rw [hl]; rfl⟩
    · cases hw
      exact ⟨h, hh, h2, rfl, by rw [hl]; rfl⟩
  · rintro ⟨h, hh, h2, rfl, rfl⟩
    obtain hl | hl | hl := halfwords_cases h
    · exact ⟨hw0, h, hh, .inl ⟨hl, by rw [hl]; rfl, (build_of_halfwords_one hl).symm⟩⟩
    · exact ⟨hw0, h, hh, .inr (.inl ⟨hl, hw1, by rw [hl]; rfl, h2, (build_of_halfwords_two hl).symm⟩)⟩
    · exact ⟨hw0, h, hh, .inr (.inr ⟨hl, hw1, hw2, by rw [hl]; rfl, h2, rfl⟩)⟩

/-- The decoder's test of the second halfword passes and gives the row exactly where the row's fixed bits are there. -/
theorem secondOk_iff (e : Encoding) (hw0 hw1 hw2 : Half) :
    (e.head.secondOk hw1 = true ∧ (e.head.build hw0 hw1 hw2).encoding = e) ↔ e.secondBits hw1 := by
  cases e with
  | jmpDisp32 => exact (and_iff_left rfl).trans (Bool.not_eq_true' _ ▸ Iff.rfl)
  | ldwDisp16 => exact and_iff_left rfl
  | stwDisp16 => exact and_iff_left rfl
  | ldwDisp23 =>
    by_cases hs : fieldSub5 hw1 = 0b01001#5
    · exact iff_of_true ⟨secondOk_formatXIV_iff.mpr (.inl hs), congrArg Instr.encoding (build_load23 hs)⟩ hs
    · refine iff_of_false (fun h => ?_) hs
      have henc := h.2
      rw [Encoding.head, build_store23 hs] at henc
      cases henc
  | stwDisp23 =>
    by_cases hs : fieldSub5 hw1 = 0b01001#5
    · refine iff_of_false (fun h => ?_) (fun h15 : fieldSub5 hw1 = 0b01111#5 => absurd (hs.symm.trans h15) (by decide))
      have henc := h.2
      rw [Encoding.head, build_load23 hs] at henc
      cases henc
    · rw [Encoding.head, build_store23 hs]
      exact (and_iff_left rfl).trans (secondOk_formatXIV_iff.trans (or_iff_right hs))
  | bcond => exact iff_of_true ⟨rfl, branch_encoding ..⟩ trivial
  | _ => exact iff_of_true ⟨rfl, rfl⟩ trivial

/-- The length a row of the opcode map gives is that of its head. -/
theorem lengthBits_eq (e : Encoding) : e.row.lengthBits = 16 * e.head.halfwords := by cases e <;> rfl

/-- Settles O4: both sides say that the first halfword decides the row's head and the second has the row's fixed bits. -/
theorem decoderAgreesWithOpcodeMap : Obligations.DecoderAgreesWithOpcodeMap := by
  intro hw0 hw1 hw2 e
  rw [selects_iff]
  constructor
  · rintro ⟨hh, hbits⟩
    obtain ⟨h2, he⟩ := (secondOk_iff e hw0 hw1 hw2).mpr hbits
    have hlen := halfwords_cases e.head
    refine ⟨_, _, decode_three_iff.mpr ⟨e.head, hh, h2, rfl, rfl⟩, he, ?_⟩
    rw [lengthBits_eq, List.length_drop, List.length_cons, List.length_cons, List.length_singleton]
    omega
  · rintro ⟨i, rest, hd, rfl, -⟩
    obtain ⟨h, hh, h2, hi, -⟩ := decode_three_iff.mp hd
    have hhead : i.encoding.head = h := hi ▸ build_encoding_head h hw0 hw1 hw2
    rw [hhead, ← secondOk_iff i.encoding hw0 hw1 hw2, hhead, ← hi]
    exact ⟨hh, h2, rfl⟩

end Sys2Proof
end

section
/-! PROOFS of the encoding: the numbers the displacements stand for (30_encoding.md R93 to R96), O7. -/

namespace Sys2Proof.Machine

/-- An even field is an even number. -/
theorem toInt_even {w : Nat} {d : BitVec (w + 1)} (h : evenDisp d = true) : d.toInt % 2 = 0 := by
  have hbit : d.toNat % 2 = 0 := by
    have hd : d.toNat.testBit 0 = false := Bool.not_eq_true' _ ▸ h
    simpa using hd
  have hpow : 2 ^ (w + 1) = 2 * 2 ^ w := by rw [pow_succ, mul_comm]
  rw [BitVec.toInt_eq_toNat_cond, hpow]
  split <;> omega

/-- A signed displacement that ends in a 0: its value, its range and that it is even. -/
theorem disp_number {w : Nat} (hw : w + 1 < 32) (x : BitVec (w + 1)) :
    (sext32 (x ++ 0#1)).toInt = (x ++ 0#1).toInt ∧ -2 ^ (w + 1) ≤ (x ++ 0#1).toInt ∧
      (x ++ 0#1).toInt ≤ 2 ^ (w + 1) - 2 ∧ (x ++ 0#1).toInt % 2 = 0 := by
  have heven := toInt_even (even_append x)
  obtain ⟨hlow, hhigh⟩ := toInt_mem_range (x ++ 0#1)
  refine ⟨toInt_sext32 (by omega) _, hlow, ?_, heven⟩
  have hpow : (2 : Int) ^ (w + 1) = 2 * 2 ^ w := by rw [pow_succ, mul_comm]
  rw [hpow] at hhigh ⊢
  omega

variable {hw0 hw1 hw2 : Half} {rest : List Half}

/-- A Bcond takes its displacement from its own halfword (R93). -/
theorem disp9_of_decode {c : Cond} {d : BitVec 9} (hd : decode [hw0, hw1, hw2] = .ok (.branch c d) rest) :
    d = fieldDisp9 hw0 := by
  have hb := build_of_decode hd
  rw [branch_encoding] at hb
  exact (branch_inj hb).2

/-- LD.W (1) and ST.W (1) take their displacement from the second halfword (R94). -/
theorem disp16_of_decode {d : BitVec 16} {r1 r2 : Reg} (hd : decode [hw0, hw1, hw2] = .ok (.ldwDisp16 d r1 r2) rest ∨
    decode [hw0, hw1, hw2] = .ok (.stwDisp16 r2 d r1) rest) : d = fieldDisp16 hw1 := by
  obtain hd | hd := hd
  · exact (Instr.ldwDisp16.inj (build_of_decode hd)).1
  · exact (Instr.stwDisp16.inj (build_of_decode hd)).2.1

/-- LD.W (2) and ST.W (2) take their displacement from the second and the third halfword (R95). -/
theorem disp23_of_decode {d : BitVec 23} {r1 r3 : Reg} (hd : decode [hw0, hw1, hw2] = .ok (.ldwDisp23 d r1 r3) rest ∨
    decode [hw0, hw1, hw2] = .ok (.stwDisp23 r3 d r1) rest) : d = fieldDisp23 hw1 hw2 := by
  have hbuild : ∀ {i : Instr}, decode [hw0, hw1, hw2] = .ok i rest → i.encoding.head = .formatXIV →
      i = Head.formatXIV.build hw0 hw1 hw2 := fun hi hx => hx ▸ build_of_decode hi
  by_cases hs : fieldSub5 hw1 = 0b01001#5
  · obtain hd | hd := hd
    · exact (Instr.ldwDisp23.inj ((hbuild hd rfl).trans (build_load23 hs))).1
    · cases (hbuild hd rfl).trans (build_load23 hs)
  · obtain hd | hd := hd
    · cases (hbuild hd rfl).trans (build_store23 hs)
    · exact (Instr.stwDisp23.inj ((hbuild hd rfl).trans (build_store23 hs))).2.1

/-- Settles O7: each displacement is its field of the halfwords, which ends in a 0, and its value the number of that field. -/
theorem displacementOperandValues : Obligations.DisplacementOperandValues := by
  intro hw0 hw1 hw2 rest
  refine ⟨fun c d hd => ?disp9, fun d r1 r2 hd => ?disp16, fun d r1 r3 hd => ?disp23, fun d r1 hd => ?disp32⟩
  case disp9 =>
    rw [disp9_of_decode hd]
    exact ⟨rfl, disp_number (w := 7) (by decide) _⟩
  case disp16 =>
    rw [disp16_of_decode hd]
    exact ⟨rfl, disp_number (w := 14) (by decide) _⟩
  case disp23 =>
    rw [disp23_of_decode hd]
    exact ⟨rfl, disp_number (w := 21) (by decide) _⟩
  case disp32 => exact ⟨(Instr.jmpDisp32.inj (build_of_decode hd)).1, rfl⟩

end Sys2Proof.Machine
end

section
/-! PROOFS of the encoding: the ranges of the assembler's operands (30_encoding.md R105), O8. -/

namespace Sys2Proof

/-- A signed operand is accepted in its range, and its field has its value. -/
theorem asmSigned_iff {w : Nat} {z : Int} {v : BitVec (w + 1)} :
    asmSigned (w + 1) z = some v ↔ -2 ^ w ≤ z ∧ z ≤ 2 ^ w - 1 ∧ v.toInt = z := by
  rw [asmSigned, Nat.add_sub_cancel, Option.ite_none_right_eq_some, Option.some.injEq, Int.le_sub_one_iff]
  constructor
  · rintro ⟨⟨hlow, hhigh⟩, rfl⟩
    exact ⟨hlow, hhigh, BitVec.toInt_ofInt_eq_self w.succ_pos hlow hhigh⟩
  · rintro ⟨hlow, hhigh, rfl⟩
    exact ⟨⟨hlow, hhigh⟩, BitVec.ofInt_toInt⟩

/-- An even signed displacement is accepted where it is even and in its range. -/
theorem asmEvenSigned_iff {w : Nat} {z : Int} {v : BitVec (w + 2)} :
    asmEvenSigned (w + 2) z = some v ↔ -2 ^ (w + 1) ≤ z ∧ z ≤ 2 ^ (w + 1) - 2 ∧ z % 2 = 0 ∧ v.toInt = z := by
  have hpow : (2 : Int) ^ (w + 1) = 2 * 2 ^ w := by rw [pow_succ, mul_comm]
  rw [asmEvenSigned, Option.ite_none_right_eq_some, asmSigned_iff, hpow]
  constructor
  · rintro ⟨heven, hlow, hhigh, hv⟩
    exact ⟨hlow, by omega, heven, hv⟩
  · rintro ⟨hlow, hhigh, heven, hv⟩
    exact ⟨heven, hlow, by omega, hv⟩

/-- The pattern of a 32-bit operand, whether written unsigned or as a negative number. -/
theorem ofInt32_eq_iff {z : Int} (hlow : -2147483648 ≤ z) (hhigh : z < 4294967296) {v : BitVec 32} :
    BitVec.ofInt 32 z = v ↔ v.toInt = z ∨ (v.toNat : Int) = z := by
  have hv := v.isLt
  rw [← BitVec.toNat_inj, BitVec.toNat_ofInt, BitVec.toInt_eq_toNat_cond]
  split <;> omega

theorem asmImm32_iff {z : Int} {v : BitVec 32} : asmImm32 z = some v ↔
    -2147483648 ≤ z ∧ z ≤ 4294967295 ∧ (v.toInt = z ∨ (v.toNat : Int) = z) := by
  rw [asmImm32, Option.ite_none_right_eq_some, Option.some.injEq, and_assoc]
  refine and_congr_right fun hlow => ?_
  rw [show z < 4294967296 ↔ z ≤ 4294967295 by omega]
  exact and_congr_right fun hhigh => ofInt32_eq_iff hlow (by omega)

theorem asmDisp32_iff {z : Int} {v : BitVec 32} : asmDisp32 z = some v ↔
    -2147483648 ≤ z ∧ z ≤ 4294967294 ∧ z % 2 = 0 ∧ (v.toInt = z ∨ (v.toNat : Int) = z) := by
  rw [asmDisp32, Option.ite_none_right_eq_some, asmImm32_iff]
  constructor
  · rintro ⟨heven, hlow, hhigh, hv⟩
    exact ⟨hlow, by omega, heven, hv⟩
  · rintro ⟨hlow, hhigh, heven, hv⟩
    exact ⟨heven, hlow, by omega, hv⟩

theorem asmReg_iff {n : Nat} {r : Reg} : asmReg n = some r ↔ n ≤ 31 ∧ r.val = n := by
  rw [asmReg, Option.dite_none_right_eq_some]
  constructor
  · rintro ⟨hn, hr⟩
    exact ⟨by omega, congrArg Fin.val (Option.some.inj hr).symm⟩
  · rintro ⟨hn, rfl⟩
    exact ⟨by omega, rfl⟩

theorem asmMovReg2_iff {n : Nat} {r : Reg} : asmMovReg2 n = some r ↔ 1 ≤ n ∧ n ≤ 31 ∧ r.val = n := by
  rw [asmMovReg2, Option.bind_eq_some_iff]
  constructor
  · rintro ⟨q, hq, hr⟩
    obtain ⟨hn, rfl⟩ := asmReg_iff.mp hq
    obtain ⟨hq0, rfl⟩ := Option.ite_none_left_eq_some.mp hr |>.imp_right Option.some.inj
    exact ⟨Nat.one_le_iff_ne_zero.mpr fun e => hq0 (Fin.ext e), hn, rfl⟩
  · rintro ⟨hpos, hn, rfl⟩
    have hr0 : r ≠ 0 := fun e => by simp [e] at hpos
    exact ⟨r, asmReg_iff.mpr ⟨hn, rfl⟩, if_neg hr0⟩

/-- Settles O8: an operand of each kind is accepted exactly in its range. -/
theorem assemblerOperandRanges : Obligations.AssemblerOperandRanges :=
  ⟨fun _ _ => asmSigned_iff, fun _ _ => asmSigned_iff, fun _ _ => asmImm32_iff, fun _ _ => asmEvenSigned_iff,
    fun _ _ => asmEvenSigned_iff, fun _ _ => asmEvenSigned_iff, fun _ _ => asmDisp32_iff, fun _ _ => asmReg_iff,
    fun _ _ => asmMovReg2_iff⟩

end Sys2Proof
end

section
/-! PROOFS of the instructions of 40_arithmetic.md: what each of the shared effects writes and leaves, and O24 to O30. -/

namespace Sys2Proof.Machine

variable {s t : State}

/-! ### The words of the statements, from the fields -/

theorem writesOnly_of_regs {dest : Reg} {v : Word} (h : t.regs = (s.setX dest v).regs) : WritesOnly s t dest v :=
  ⟨(x_congr h dest).trans (setX_x_same s dest v), fun r hr => (x_congr h r).trans (setX_x_ne s hr v)⟩

theorem memorySame_of_fields (hm : t.mem = s.mem) (ha : t.admitted = s.admitted) (hc : t.code = s.code)
    (hf : t.faulted = s.faulted) : MemorySame s t :=
  ⟨byteAt_congr hm, ha, hc, hf⟩

/-! ### The shared effects -/

variable (s) (dest : Reg) (r : ArithResult) (a b v len : Word)

theorem finishArith_spec : ∃ t, finishArith s dest r len = .next t ∧ WritesOnly s t dest r.r ∧
    t.flags = s.flags.writeArith r ∧ t.pc = s.pc + len ∧ MemorySame s t :=
  ⟨_, rfl, writesOnly_of_regs rfl, by simp, by simp, memorySame_of_fields (by simp) (by simp) (by simp) (by simp)⟩

/-- An addition that stores its result (40_arithmetic.md R121). -/
theorem finishArith_addition : ∃ t, finishArith s dest (addFlags a b) len = .next t ∧ WritesOnly s t dest (a + b) ∧
    AdditionFlags s t a b ∧ t.pc = s.pc + len ∧ MemorySame s t := by
  obtain ⟨t, ht, hx, hf, hpc, hm⟩ := finishArith_spec s dest (addFlags a b) len
  exact ⟨t, ht, addFlags_r a b ▸ hx, additionFlags_of_writeArith hf, hpc, hm⟩

/-- A subtraction that stores its result (40_arithmetic.md R122). -/
theorem finishArith_subtraction : ∃ t, finishArith s dest (subFlags a b) len = .next t ∧ WritesOnly s t dest (a - b) ∧
    SubtractionFlags s t a b ∧ t.pc = s.pc + len ∧ MemorySame s t := by
  obtain ⟨t, ht, hx, hf, hpc, hm⟩ := finishArith_spec s dest (subFlags a b) len
  exact ⟨t, ht, hx, subtractionFlags_of_writeArith hf, hpc, hm⟩

/-- A comparison is a subtraction that stores nothing. -/
theorem finishCompare_subtraction : ∃ t, finishCompare s (subFlags a b) len = .next t ∧ RegistersSame s t ∧
    SubtractionFlags s t a b ∧ t.pc = s.pc + len ∧ MemorySame s t :=
  ⟨_, rfl, fun _ => rfl, subtractionFlags_of_writeArith rfl, rfl, memorySame_of_fields rfl rfl rfl rfl⟩

theorem finishMove_spec : ∃ t, finishMove s dest v len = .next t ∧ WritesOnly s t dest v ∧ t.flags = s.flags ∧
    t.pc = s.pc + len ∧ MemorySame s t :=
  ⟨_, rfl, writesOnly_of_regs rfl, by simp, by simp, memorySame_of_fields (by simp) (by simp) (by simp) (by simp)⟩

end Sys2Proof.Machine

namespace Sys2Proof.Machine

/-! ### The instructions -/

/-- Settles O24: an addition of reg2 and reg1. -/
theorem addRegister : Obligations.AddRegister := fun _ _ _ => finishArith_addition ..

/-- Settles O25: an addition of reg2 and the extended imm5. -/
theorem addImmediate5 : Obligations.AddImmediate5 := fun _ _ _ => finishArith_addition ..

/-- Settles O26: an addition of reg1 and the extended imm16. -/
theorem addImmediate16 : Obligations.AddImmediate16 := fun _ _ _ _ => finishArith_addition ..

/-- Settles O27: a subtraction of reg1 from reg2. -/
theorem subtractRegister : Obligations.SubtractRegister := fun _ _ _ => finishArith_subtraction ..

/-- Settles O28: the three forms of MOV are one transfer to a register. -/
theorem moveCopiesOperand : Obligations.MoveCopiesOperand := fun _ _ _ _ _ =>
  ⟨finishMove_spec .., finishMove_spec .., finishMove_spec ..⟩

/-- Settles O29: a comparison of reg2 with reg1. -/
theorem compareRegister : Obligations.CompareRegister := fun _ _ _ => finishCompare_subtraction ..

/-- Settles O30: a comparison of reg2 with the extended imm5. -/
theorem compareImmediate5 : Obligations.CompareImmediate5 := fun _ _ _ => finishCompare_subtraction ..

/-- Settles O19: r0 is tested for before its slot is read or written. -/
theorem registerZeroIsHardWired : Obligations.RegisterZeroIsHardWired := fun _ _ => ⟨rfl, rfl⟩

end Sys2Proof.Machine
end

section
/-! PROOFS of the instructions of 41_branch.md: where JMP and Bcond go, O32 and O34 to O38. -/

namespace Sys2Proof.Machine

/-- What a jump does: the `pc` alone, every bit of the target but bit 0. -/
theorem jump_spec (s : State) (x : Word) : OnlyPc s (s.jump x) (s.jump x).pc ∧ (s.jump x).pc.getLsbD 0 = false ∧
    ∀ k, 1 ≤ k → (s.jump x).pc.getLsbD k = x.getLsbD k := by
  have hbit : ∀ k, (s.jump x).pc.getLsbD k = (x.getLsbD k && (decide (1 ≤ k) && decide (k < 32))) := fun k => by
    rw [jump_pc, BitVec.getLsbD_and, jumpMask_bit]
  refine ⟨⟨fun _ => rfl, rfl, memorySame_of_fields rfl rfl rfl rfl, rfl⟩, by rw [hbit]; simp, fun k hk => ?_⟩
  rw [hbit, decide_eq_true hk, Bool.true_and]
  by_cases hlt : k < 32
  · rw [decide_eq_true hlt, Bool.and_true]
  · rw [BitVec.getLsbD_of_ge x k (by omega), Bool.false_and]

/-- Settles O32: both forms are `State.jump`. -/
theorem jumpTransfersControl : Obligations.JumpTransfersControl := fun _ _ _ =>
  ⟨⟨_, rfl, jump_spec ..⟩, ⟨_, rfl, jump_spec ..⟩⟩

/-- A Bcond with an even displacement at an even `pc`, its condition said as a proposition. -/
theorem exec_branch_even {c : Cond} {d : BitVec 9} {s : State} {p : Prop} [Decidable p] (hd : evenDisp d = true)
    (hpc : s.pc.getLsbD 0 = false) (hp : condHolds c s.flags = true ↔ p) :
    exec (.branch c d) s = .next { s with pc := if p then s.pc + d.signExtend 32 else s.pc + 2#32 } := by
  rw [exec_branch, branchOn_next]
  by_cases hc : condHolds c s.flags = true
  · rw [if_pos hc, if_pos (hp.mp hc), State.jump]
    exact congrArg s.setPc (and_jumpMask_of_even (add_even hpc (signExtend_even hd))).symm
  · rw [if_neg hc, if_neg (mt hp.mpr hc)]
    rfl

/-- Settles O34: the conditions of codes 1110, 1111, 0111 and 0110. -/
theorem signedBranches : Obligations.SignedBranches := by
  intro d s hd hpc
  obtain ⟨-, -, -, -, -, -, hlt, hle, -, -, -, -, -, -, hge, hgt⟩ := conditionCodeTable.1 s.flags
  exact ⟨exec_branch_even (c := .ge) hd hpc hge, exec_branch_even (c := .gt) hd hpc hgt,
    exec_branch_even (c := .le) hd hpc hle, exec_branch_even (c := .lt) hd hpc hlt⟩

/-- Settles O35: the conditions of codes 1011, 0001, 0011 and 1001. -/
theorem unsignedBranches : Obligations.UnsignedBranches := by
  intro d s hd hpc
  obtain ⟨-, hl, -, hnh, -, -, -, -, -, hnl, -, hh, -, -, -, -⟩ := conditionCodeTable.1 s.flags
  exact ⟨exec_branch_even (c := .h) hd hpc hh, exec_branch_even (c := .l) hd hpc hl,
    exec_branch_even (c := .nh) hd hpc hnh, exec_branch_even (c := .nl) hd hpc hnl⟩

/-- Settles O36: the conditions of codes 0010, 1010, 0100, 1100, 0000 and 1000. -/
theorem singleFlagBranches : Obligations.SingleFlagBranches := by
  intro d s hd hpc
  obtain ⟨hv, -, he, -, hn, -, -, -, hnv, -, hne, -, hp, -, -, -⟩ := conditionCodeTable.1 s.flags
  exact ⟨exec_branch_even (c := .e) hd hpc he, exec_branch_even (c := .ne) hd hpc hne,
    exec_branch_even (c := .n) hd hpc hn, exec_branch_even (c := .p) hd hpc hp,
    exec_branch_even (c := .v) hd hpc hv, exec_branch_even (c := .nv) hd hpc hnv⟩

/-- Settles O37: the conditions of codes 0101 and 1101. -/
theorem alwaysAndSaturatedBranches : Obligations.AlwaysAndSaturatedBranches := by
  intro d s hd hpc
  obtain ⟨-, -, -, -, -, halways, -, -, -, -, -, -, -, hsa, -, -⟩ := conditionCodeTable.1 s.flags
  exact ⟨(exec_branch_even (c := .always) hd hpc (iff_true_intro halways)).trans (by rw [if_pos trivial]),
    exec_branch_even (c := .sa) hd hpc hsa⟩

/-! ### The flags of a subtraction as comparisons (40_arithmetic.md section 7) -/

section Comparison

variable {s t : State} {a b : Word}

/-- S and OV differ exactly where the signed comparison "less" holds. -/
theorem less_iff_of_subtraction (h : SubtractionFlags s t a b) : t.flags.s ≠ t.flags.ov ↔ a.toInt < b.toInt := by
  obtain ⟨-, hov, hs, -, -⟩ := h
  have hsign : t.flags.s = true ↔ (a.toInt - b.toInt).bmod 4294967296 < 0 := by
    have hmsb := BitVec.msb_eq_toInt (x := a - b)
    rw [BitVec.toInt_sub] at hmsb
    rw [hs, ← BitVec.msb_eq_getLsbD_last, hmsb]
    exact decide_eq_true_iff
  have ha := toInt_mem_range a
  have hb := toInt_mem_range b
  have hdiff : t.flags.s ≠ t.flags.ov ↔ ¬(t.flags.s = true ↔ t.flags.ov = true) := not_congr Bool.eq_iff_iff
  rw [hdiff, hsign, hov, Int.bmod_def]
  split <;> omega

/-- The flags after a comparison, as the order of its operands: signed, unsigned and equality. -/
theorem order_of_subtraction (h : SubtractionFlags s t a b) :
    (t.flags.s ≠ t.flags.ov ↔ a.toInt < b.toInt) ∧ (t.flags.cy = true ↔ a.toNat < b.toNat) ∧
      (t.flags.z = true ↔ a = b) := by
  have hless := less_iff_of_subtraction h
  obtain ⟨hcy, -, -, hz, -⟩ := h
  exact ⟨hless, hcy, hz⟩

end Comparison

/-- Settles O38: the flags are those of the subtraction, and each condition is its comparison. -/
theorem compareThenBranchDecidesOrder : Obligations.CompareThenBranchDecidesOrder := by
  intro reg1 reg2 d s t hd hpc hx
  obtain ⟨u, hu, -, hflags, htpc, -⟩ := compareRegister reg1 reg2 s
  cases Host.Outcome.next.inj (hx.symm.trans hu)
  obtain ⟨hlt, hcy, hz⟩ := order_of_subtraction hflags
  generalize s.x reg1 = a at *
  generalize s.x reg2 = b at *
  have heven : t.pc.getLsbD 0 = false := htpc ▸ add_even hpc rfl
  have hnext : s.pc + 4#32 = t.pc + 2#32 := by rw [htpc, BitVec.add_assoc]; rfl
  have hsigned : b = a ↔ b.toInt = a.toInt := BitVec.toInt_inj.symm
  have hunsigned : b = a ↔ b.toNat = a.toNat := BitVec.toNat_inj.symm
  obtain ⟨-, hl, he, hnh, -, -, hltc, hle, -, hnl, hne, hh, -, -, hge, hgt⟩ := conditionCodeTable.1 t.flags
  rw [hnext, ← htpc]
  have hnlt : t.flags.s = t.flags.ov ↔ ¬b.toInt < a.toInt := by rw [← hlt, not_not]
  have hncy : t.flags.cy = false ↔ ¬b.toNat < a.toNat := by rw [← hcy, Bool.not_eq_true]
  have hnz : t.flags.z = false ↔ b ≠ a := by rw [← Bool.not_eq_true, hz]
  refine ⟨exec_branch_even (c := .ge) hd heven (hge.trans ?ge), exec_branch_even (c := .gt) hd heven (hgt.trans ?gt),
    exec_branch_even (c := .le) hd heven (hle.trans ?le), exec_branch_even (c := .lt) hd heven (hltc.trans hlt),
    exec_branch_even (c := .h) hd heven (hh.trans ?h), exec_branch_even (c := .l) hd heven (hl.trans hcy),
    exec_branch_even (c := .nh) hd heven (hnh.trans ?nh), exec_branch_even (c := .nl) hd heven (hnl.trans ?nl),
    exec_branch_even (c := .e) hd heven (he.trans hz), exec_branch_even (c := .ne) hd heven (hne.trans hnz)⟩
  case ge => rw [hnlt, not_lt]
  case gt => rw [hnlt, hnz, Ne, hsigned]; omega
  case le => rw [hlt, hz, hsigned]; omega
  case h => rw [hncy, hnz, Ne, hunsigned]; omega
  case nh => rw [hcy, hz, hunsigned]; omega
  case nl => rw [hncy, not_lt]

end Sys2Proof.Machine
end

section
/-! PROOFS of the instructions: the register each writes and those it reads (10_state.md R23), where it goes on (R26), O20, O21
and O39. -/

namespace Sys2Proof.Machine

/-! ### The register written -/

section Written

variable {s t : State} {dest r : Reg}

theorem finishArith_x_ne {a : ArithResult} {len : Word} (h : finishArith s dest a len = .next t)
    (hr : some dest ≠ some r) : t.x r = s.x r := by
  rw [finishArith_next.mp h]
  exact setX_x_ne s (fun e => hr (congrArg some e.symm)) a.r

theorem finishMove_x_ne {v len : Word} (h : finishMove s dest v len = .next t) (hr : some dest ≠ some r) :
    t.x r = s.x r := by
  rw [finishMove_next.mp h]
  exact setX_x_ne s (fun e => hr (congrArg some e.symm)) v

theorem finishLoad_x_ne {addr len : Word} (h : finishLoad s addr dest len = .next t) (hr : some dest ≠ some r) :
    t.x r = s.x r := by
  obtain ⟨v, -, rfl⟩ := finishLoad_next.mp h
  exact setX_x_ne s (fun e => hr (congrArg some e.symm)) v

theorem finishCompare_x {a : ArithResult} {len : Word} (h : finishCompare s a len = .next t) : t.x r = s.x r := by
  rw [finishCompare_next.mp h]
  rfl

theorem finishStore_x {addr len : Word} {src : Reg} (h : finishStore s addr src len = .next t) : t.x r = s.x r := by
  obtain ⟨u, hu, rfl⟩ := finishStore_next.mp h
  obtain ⟨-, -, -, rfl⟩ := memWrite_ok.mp hu
  rfl

theorem branchOn_x {c : Cond} {d : BitVec 9} (h : branchOn s c d = .next t) : t.x r = s.x r := by
  rw [branchOn_next.mp h]
  split <;> rfl

end Written

/-- Settles O20: the shared effects write no register but their destination. -/
theorem onlyListedRegisterWritten : Obligations.OnlyListedRegisterWritten := by
  intro i s t h r hr
  cases i using Instr.casesRows with
  | addReg => exact finishArith_x_ne h hr
  | addImm5 => exact finishArith_x_ne h hr
  | addi => exact finishArith_x_ne h hr
  | sub => exact finishArith_x_ne h hr
  | movReg => exact finishMove_x_ne h hr
  | movImm5 => exact finishMove_x_ne h hr
  | movImm32 => exact finishMove_x_ne h hr
  | jmpReg => cases h; rfl
  | jmpDisp32 => cases h; rfl
  | cmpReg => exact finishCompare_x h
  | cmpImm5 => exact finishCompare_x h
  | ldwDisp16 => exact finishLoad_x_ne h hr
  | ldwDisp23 => exact finishLoad_x_ne h hr
  | stwDisp16 => exact finishStore_x h
  | stwDisp23 => exact finishStore_x h
  | branch c d => exact branchOn_x (exec_branch c d s ▸ h)

/-! ### Where an instruction goes on -/

section Flow

variable {s t : State} {dest : Reg} {len : Word}

theorem finishArith_pc {a : ArithResult} (h : finishArith s dest a len = .next t) : t.pc = s.pc + len := by
  rw [finishArith_next.mp h]
  simp

theorem finishMove_pc {v : Word} (h : finishMove s dest v len = .next t) : t.pc = s.pc + len := by
  rw [finishMove_next.mp h]
  simp

theorem finishCompare_pc {a : ArithResult} (h : finishCompare s a len = .next t) : t.pc = s.pc + len := by
  rw [finishCompare_next.mp h]
  rfl

theorem finishLoad_pc {addr : Word} (h : finishLoad s addr dest len = .next t) : t.pc = s.pc + len := by
  obtain ⟨v, -, rfl⟩ := finishLoad_next.mp h
  simp

theorem finishStore_pc {addr : Word} {src : Reg} (h : finishStore s addr src len = .next t) : t.pc = s.pc + len := by
  obtain ⟨u, hu, rfl⟩ := finishStore_next.mp h
  obtain ⟨-, -, -, rfl⟩ := memWrite_ok.mp hu
  rfl

@[simp] theorem branch_transfersControl (c : Cond) (d : BitVec 9) : (Instr.branch c d).transfersControl = true := by
  cases c <;> rfl

end Flow

/-- Settles O39: every effect but a transfer advances by the length it is given. -/
theorem sequentialFlow : Obligations.SequentialFlow := by
  intro i s t hi h
  cases i using Instr.casesRows with
  | addReg => exact finishArith_pc h
  | addImm5 => exact finishArith_pc h
  | addi => exact finishArith_pc h
  | sub => exact finishArith_pc h
  | movReg => exact finishMove_pc h
  | movImm5 => exact finishMove_pc h
  | movImm32 => exact finishMove_pc h
  | jmpReg => cases hi
  | jmpDisp32 => cases hi
  | cmpReg => exact finishCompare_pc h
  | cmpImm5 => exact finishCompare_pc h
  | ldwDisp16 => exact finishLoad_pc h
  | ldwDisp23 => exact finishLoad_pc h
  | stwDisp16 => exact finishStore_pc h
  | stwDisp23 => exact finishStore_pc h
  | branch c d => exact absurd hi (by simp)

/-! ### The registers read -/

/-- The two states agree on all that an instruction can see but the registers. -/
structure AgreeOffRegs (s s' : State) : Prop where
  pc : s'.pc = s.pc
  flags : s'.flags = s.flags
  mem : s'.mem = s.mem
  admitted : s'.admitted = s.admitted
  code : s'.code = s.code

/-- Two outcomes are the same fault, or next states that agree but for registers other than `dest`. -/
def SameEnd (dest : Option Reg) (o o' : Outcome) : Prop :=
  (∀ f, o = .fault f ↔ o' = .fault f) ∧
    ∀ t, o = .next t → ∃ t', o' = .next t' ∧ t'.pc = t.pc ∧ t'.flags = t.flags ∧ t'.mem = t.mem ∧
      ∀ r, dest = some r → t'.x r = t.x r

section Read

variable {s s' t t' : State} {dest : Reg} {len : Word}

theorem sameEnd_fault {d : Option Reg} (f : Fault) : SameEnd d (.fault f) (.fault f) := ⟨fun _ => .rfl, nofun⟩

theorem sameEnd_next {d : Option Reg} (ha : AgreeOffRegs t t') (hx : ∀ r, d = some r → t'.x r = t.x r) :
    SameEnd d (.next t) (.next t') := by
  refine ⟨fun _ => ⟨nofun, nofun⟩, fun u hu => ?_⟩
  cases hu
  exact ⟨t', rfl, ha.pc, ha.flags, ha.mem, hx⟩

/-- A register reads the same after the same value was written to it. -/
theorem setX_x_agree (v : Word) (r : Reg) (hr : some dest = some r) : (s'.setX dest v).x r = (s.setX dest v).x r := by
  cases hr
  rw [setX_x_same, setX_x_same]

theorem AgreeOffRegs.setX (ha : AgreeOffRegs s s') (v : Word) : AgreeOffRegs (s.setX dest v) (s'.setX dest v) where
  pc := by simpa using ha.pc
  flags := by simpa using ha.flags
  mem := by simpa using ha.mem
  admitted := by simpa using ha.admitted
  code := by simpa using ha.code

theorem AgreeOffRegs.setPc (ha : AgreeOffRegs s s') (v : Word) : AgreeOffRegs (s.setPc v) (s'.setPc v) :=
  { ha with pc := rfl }

theorem AgreeOffRegs.advance (ha : AgreeOffRegs s s') : AgreeOffRegs (s.advance len) (s'.advance len) :=
  { ha with pc := congrArg (· + len) ha.pc }

theorem AgreeOffRegs.writeArith (ha : AgreeOffRegs s s') (r : ArithResult) :
    AgreeOffRegs (s.writeArith r) (s'.writeArith r) :=
  { ha with flags := congrArg (Flags.writeArith · r) ha.flags }

theorem AgreeOffRegs.setMem (ha : AgreeOffRegs s s') {m m' : Memory} (hm : m' = m) :
    AgreeOffRegs (s.setMem m) (s'.setMem m') :=
  { ha with mem := hm }

theorem sameEnd_arith (ha : AgreeOffRegs s s') {r r' : ArithResult} (hr : r' = r) :
    SameEnd (some dest) (finishArith s dest r len) (finishArith s' dest r' len) :=
  hr ▸ sameEnd_next ((ha.setX r'.r).writeArith r').advance fun q => setX_x_agree r'.r q

theorem sameEnd_compare (ha : AgreeOffRegs s s') {r r' : ArithResult} (hr : r' = r) :
    SameEnd none (finishCompare s r len) (finishCompare s' r' len) :=
  hr ▸ sameEnd_next (ha.writeArith r').advance nofun

theorem sameEnd_move (ha : AgreeOffRegs s s') {v v' : Word} (hv : v' = v) :
    SameEnd (some dest) (finishMove s dest v len) (finishMove s' dest v' len) :=
  hv ▸ sameEnd_next (ha.setX v').advance fun q => setX_x_agree v' q

theorem sameEnd_jump (ha : AgreeOffRegs s s') {v v' : Word} (hv : v' = v) :
    SameEnd none (.next (s.jump v)) (.next (s'.jump v')) :=
  hv ▸ sameEnd_next (ha.setPc _) nofun

theorem sameEnd_branch (ha : AgreeOffRegs s s') (c : Cond) (d : BitVec 9) :
    SameEnd none (branchOn s c d) (branchOn s' c d) := by
  unfold branchOn
  rw [ha.flags]
  split
  · exact sameEnd_jump ha (congrArg (· + disp9Value d) ha.pc)
  · exact sameEnd_next ha.advance nofun

theorem memRead_agree (ha : AgreeOffRegs s s') (addr : Word) : s'.memRead addr = s.memRead addr := by
  have hin : s'.inAdmit = s.inAdmit := funext (inAdmit_congr ha.admitted)
  have hbyte : s'.byteAt = s.byteAt := funext (byteAt_congr ha.mem)
  rw [State.memRead, State.memRead, alignmentFault_eq, alignmentFault_eq, hin, hbyte, ha.pc]

theorem sameEnd_load (ha : AgreeOffRegs s s') {addr addr' : Word} (hb : addr' = addr) :
    SameEnd (some dest) (finishLoad s addr dest len) (finishLoad s' addr' dest len) := by
  rw [hb, finishLoad, finishLoad, memRead_agree ha]
  cases s.memRead addr with
  | error f => exact sameEnd_fault f
  | ok v => exact sameEnd_next (ha.setX v).advance fun q => setX_x_agree v q

/-- A write faults in both states, or succeeds in both. -/
theorem memWrite_agree (ha : AgreeOffRegs s s') (addr v : Word) :
    (∃ f, s.memWrite addr v = .error f ∧ s'.memWrite addr v = .error f) ∨
      ∃ u u', s.memWrite addr v = .ok u ∧ s'.memWrite addr v = .ok u' ∧ AgreeOffRegs u u' := by
  have hadmit : s'.inAdmit = s.inAdmit := funext (inAdmit_congr ha.admitted)
  have hcode : s'.inCode = s.inCode := funext (inCode_congr ha.code)
  cases hw : s.memWrite addr v with
  | error f =>
    refine .inl ⟨f, rfl, ?_⟩
    rw [memWrite_error] at hw ⊢
    rwa [hadmit, hcode, ha.pc]
  | ok u =>
    obtain ⟨hal, had, hco, rfl⟩ := memWrite_ok.mp hw
    refine .inr ⟨_, _, rfl, memWrite_ok.mpr ⟨hal, ?_, ?_, rfl⟩, ha.setMem (by rw [ha.mem])⟩
    · rwa [hadmit]
    · rwa [hcode]

theorem sameEnd_store (ha : AgreeOffRegs s s') {addr addr' : Word} {src : Reg} (hb : addr' = addr)
    (hsrc : s'.x src = s.x src) : SameEnd none (finishStore s addr src len) (finishStore s' addr' src len) := by
  rw [hb, finishStore, finishStore, hsrc]
  obtain ⟨f, h, h'⟩ | ⟨u, u', h, h', hu⟩ := memWrite_agree ha addr (s.x src)
  · rw [h, h']
    exact sameEnd_fault f
  · rw [h, h']
    exact sameEnd_next hu.advance nofun

end Read

@[simp] theorem branch_writesReg (c : Cond) (d : BitVec 9) : (Instr.branch c d).writesReg = none := by
  cases c <;> rfl

/-- An instruction ends the same way in two states that agree off the registers and on the registers it reads. -/
theorem exec_sameEnd {i : Instr} {s s' : State} (ha : AgreeOffRegs s s') (hr : ∀ r ∈ i.readsRegs, s'.x r = s.x r) :
    SameEnd i.writesReg (exec i s) (exec i s') := by
  cases i using Instr.casesRows with
  | addReg => exact sameEnd_arith ha (congrArg₂ addFlags (hr _ (.tail _ (.head _))) (hr _ (.head _)))
  | addImm5 => exact sameEnd_arith ha (congrArg (addFlags · _) (hr _ (.head _)))
  | addi => exact sameEnd_arith ha (congrArg (addFlags · _) (hr _ (.head _)))
  | sub => exact sameEnd_arith ha (congrArg₂ subFlags (hr _ (.tail _ (.head _))) (hr _ (.head _)))
  | movReg => exact sameEnd_move ha (hr _ (.head _))
  | movImm5 => exact sameEnd_move ha rfl
  | movImm32 => exact sameEnd_move ha rfl
  | jmpReg => exact sameEnd_jump ha (hr _ (.head _))
  | jmpDisp32 => exact sameEnd_jump ha (congrArg (· + _) (hr _ (.head _)))
  | cmpReg => exact sameEnd_compare ha (congrArg₂ subFlags (hr _ (.tail _ (.head _))) (hr _ (.head _)))
  | cmpImm5 => exact sameEnd_compare ha (congrArg (subFlags · _) (hr _ (.head _)))
  | ldwDisp16 => exact sameEnd_load ha (congrArg (· + _) (hr _ (.head _)))
  | ldwDisp23 => exact sameEnd_load ha (congrArg (· + _) (hr _ (.head _)))
  | stwDisp16 => exact sameEnd_store ha (congrArg (· + _) (hr _ (.head _))) (hr _ (.tail _ (.head _)))
  | stwDisp23 => exact sameEnd_store ha (congrArg (· + _) (hr _ (.head _))) (hr _ (.tail _ (.head _)))
  | branch c d =>
    rw [branch_writesReg, exec_branch, exec_branch]
    exact sameEnd_branch ha c d

/-- Settles O21: the two states agree off the registers and on those read. -/
theorem onlyListedRegistersRead : Obligations.OnlyListedRegistersRead :=
  fun _ _ _ hpc hflags hmem hadmitted hcode hr => exec_sameEnd ⟨hpc, hflags, hmem, hadmitted, hcode⟩ hr

/-! ### SAT -/

/-- No effect writes SAT (10_state.md R32, R33). -/
theorem effect_sat {s t : State} (h : Effect s t) : t.flags.sat = s.flags.sat := by
  cases h with
  | move dest v p h => rw [h]; simp
  | arith dest r p h => rw [h]; simp
  | compare r p h => rw [h]; rfl
  | transfer p h => rw [h]; rfl
  | store addr v p u hw h => rw [h, setPc_flags, memWrite_flags hw]

/-- Settles O23, by induction on the run. -/
theorem saturatedFlagNeverWritten : Obligations.SaturatedFlagNeverWritten :=
  runsTo_induction (P := fun s t => t.flags.sat = s.flags.sat) (fun _ => rfl)
    fun _ _ _ hstep hrest => hrest.trans (effect_sat (step_effect hstep))

end Sys2Proof.Machine
end

section
/-! PROOFS of the word accesses (20_memory.md, 42_load.md, 43_store.md): O40 to O45. -/

namespace Sys2Proof.Machine

/-! ### The words of the statements -/

/-- The alignment test, as a number (20_memory.md R54). -/
theorem aligned_iff {addr : Word} : aligned addr = true ↔ addr.toNat % 4 = 0 := by
  rw [aligned, beq_iff_eq, ← BitVec.toNat_inj, BitVec.extractLsb'_toNat]
  rfl

theorem aligned_eq_false_iff {addr : Word} : aligned addr = false ↔ addr.toNat % 4 ≠ 0 := by
  rw [← Bool.not_eq_true, aligned_iff]

/-- The four addresses of a word, by their offsets. -/
theorem wordAddrs_all_iff {p : Word → Bool} {addr : Word} :
    (wordAddrs addr).all p = true ↔ ∀ k, k < 4 → p (addr + BitVec.ofNat 32 k) = true := by
  have h0 : addr + BitVec.ofNat 32 0 = addr := BitVec.add_zero addr
  simp only [wordAddrs, List.all_cons, List.all_nil, Bool.and_true, Bool.and_eq_true]
  constructor
  · rintro ⟨p0, p1, p2, p3⟩ k hk
    match k with
    | 0 => rwa [h0]
    | 1 => exact p1
    | 2 => exact p2
    | 3 => exact p3
  · intro h
    exact ⟨h0 ▸ h 0 (by decide), h 1 (by decide), h 2 (by decide), h 3 (by decide)⟩

variable {s t : State} {addr : Word}

theorem wordAdmitted_iff : (wordAddrs addr).all s.inAdmit = true ↔ s.WordAdmitted addr := wordAddrs_all_iff

theorem wordOutsideCode_iff : (wordAddrs addr).all (fun a => !s.inCode a) = true ↔ s.WordOutsideCode addr := by
  simp only [wordAddrs_all_iff, Bool.not_eq_true', State.WordOutsideCode]

/-- The word in memory at an address, the lowest byte from the lowest address (20_memory.md R52). -/
def State.wordAt (s : State) (addr : Word) : Word :=
  s.byteAt (addr + 3#32) ++ s.byteAt (addr + 2#32) ++ s.byteAt (addr + 1#32) ++ s.byteAt addr

/-! ### When an access completes and when it faults -/

theorem memRead_ok_iff {v : Word} : s.memRead addr = .ok v ↔
    addr.toNat % 4 = 0 ∧ s.WordAdmitted addr ∧ v = s.wordAt addr := by
  rw [memRead_ok, aligned_iff, wordAdmitted_iff]
  rfl

theorem memRead_error_iff {f : Fault} : s.memRead addr = .error f ↔
    (addr.toNat % 4 ≠ 0 ∧ f = .misalignedAccess s.pc addr) ∨
      (addr.toNat % 4 = 0 ∧ ¬s.WordAdmitted addr ∧ f = .accessNotAdmitted s.pc addr) := by
  rw [memRead_error, aligned_eq_false_iff, aligned_iff, ← wordAdmitted_iff, Bool.not_eq_true]

theorem memWrite_ok_iff {v : Word} : s.memWrite addr v = .ok t ↔
    addr.toNat % 4 = 0 ∧ s.WordAdmitted addr ∧ s.WordOutsideCode addr ∧ t = s.setMem (s.mem.writeWord addr v) := by
  rw [memWrite_ok, aligned_iff, wordAdmitted_iff, wordOutsideCode_iff]

theorem memWrite_error_iff {v : Word} {f : Fault} : s.memWrite addr v = .error f ↔
    (addr.toNat % 4 ≠ 0 ∧ f = .misalignedAccess s.pc addr) ∨
      (addr.toNat % 4 = 0 ∧ (¬s.WordAdmitted addr ∨ ¬s.WordOutsideCode addr) ∧ f = .accessNotAdmitted s.pc addr) := by
  rw [memWrite_error, aligned_eq_false_iff, aligned_iff, ← wordAdmitted_iff, ← wordOutsideCode_iff,
    ← Bool.not_eq_true (_ && _), Bool.and_eq_true, not_and_or]

/-- Settles O43: alignment is tested before either set is looked at, for reads and for writes. -/
theorem misalignedWordFaults : Obligations.MisalignedWordFaults := by
  intro disp16 disp23 reg1 r s addr hal
  have hload : ∀ len, finishLoad s addr r len = .fault (.misalignedAccess s.pc addr) := fun _ =>
    finishLoad_fault.mpr (memRead_error_iff.mpr (.inl ⟨hal, rfl⟩))
  have hstore : ∀ len, finishStore s addr r len = .fault (.misalignedAccess s.pc addr) := fun _ =>
    finishStore_fault.mpr (memWrite_error_iff.mpr (.inl ⟨hal, rfl⟩))
  constructor
  · rintro rfl
    exact ⟨hload 4#32, hstore 4#32⟩
  · rintro rfl
    exact ⟨hload 6#32, hstore 6#32⟩

/-- Settles O44: an aligned read faults outside `ADMIT`, an aligned write there or inside `CODE`. -/
theorem accessOutsideAdmitFaults : Obligations.AccessOutsideAdmitFaults := by
  intro disp16 disp23 reg1 r s addr hal
  constructor
  · intro hno
    have hload : ∀ len, finishLoad s addr r len = .fault (.accessNotAdmitted s.pc addr) := fun _ =>
      finishLoad_fault.mpr (memRead_error_iff.mpr (.inr ⟨hal, hno, rfl⟩))
    constructor
    · rintro rfl
      exact hload 4#32
    · rintro rfl
      exact hload 6#32
  · intro hno
    have hstore : ∀ len, finishStore s addr r len = .fault (.accessNotAdmitted s.pc addr) := fun _ =>
      finishStore_fault.mpr (memWrite_error_iff.mpr (.inr ⟨hal, hno, rfl⟩))
    constructor
    · rintro rfl
      exact hstore 4#32
    · rintro rfl
      exact hstore 6#32

/-- Settles O42: the sum of a word and an extended displacement, modulo 2^32. -/
theorem effectiveAddressWraps : Obligations.EffectiveAddressWraps := by
  intro s reg1 disp16 disp23
  have hsum : ∀ {w : Nat}, w ≤ 32 → ∀ d : BitVec w,
      ((s.x reg1 + sext32 d).toNat : Int) = ((s.x reg1).toNat + d.toInt) % 4294967296 := by
    intro w hw d
    rw [← toInt_sext32 hw d, BitVec.toInt_eq_toNat_cond, BitVec.toNat_add]
    split <;> omega
  exact ⟨hsum (by decide) disp16, hsum (by decide) disp23⟩

/-! ### Loads -/

theorem finishLoad_spec {v : Word} (h : s.memRead addr = .ok v) (dest : Reg) (len : Word) :
    ∃ t, finishLoad s addr dest len = .next t ∧ WritesOnly s t dest v ∧ t.flags = s.flags ∧ t.pc = s.pc + len ∧
      MemorySame s t :=
  ⟨_, finishLoad_next.mpr ⟨v, h, rfl⟩, writesOnly_of_regs rfl, by simp, by simp,
    memorySame_of_fields (by simp) (by simp) (by simp) (by simp)⟩

/-- Settles O40: the read completes, and the load writes what it read. -/
theorem loadWord : Obligations.LoadWord := by
  intro disp16 disp23 reg1 dest s addr hal had
  have hread : s.memRead addr = .ok (s.wordAt addr) := memRead_ok_iff.mpr ⟨hal, had, rfl⟩
  constructor
  · rintro rfl
    exact finishLoad_spec hread dest 4#32
  · rintro rfl
    exact finishLoad_spec hread dest 6#32

/-! ### Stores -/

/-- Memory whose addresses rise: the part of the canonical form that reading after a write rests on. -/
abbrev Memory.Rising (m : Memory) : Prop := List.Pairwise (fun c d : Host.Cell => c.1 < d.1) m

theorem read_writeWord_inside {m : Memory} (hm : m.Rising) (addr v : Word) {k : Nat} (hk : k < 4) :
    Memory.read (m.writeWord addr v) (addr + BitVec.ofNat 32 k).toNat = v.extractLsb' (8 * k) 8 := by
  rw [read_writeWord hm]
  match k with
  | 0 => simp [byteOfWord]
  | 1 => simp [byteOfWord]
  | 2 => simp [byteOfWord]
  | 3 => simp [byteOfWord]

theorem read_writeWord_outside {m : Memory} (hm : m.Rising) (addr v : Word) {a : Word}
    (ha : ∀ k, k < 4 → a ≠ addr + BitVec.ofNat 32 k) :
    Memory.read (m.writeWord addr v) a.toNat = Memory.read m a.toNat := by
  have h0 : a ≠ addr := fun e => ha 0 (by decide) (e.trans (BitVec.add_zero addr).symm)
  rw [read_writeWord hm, if_neg (ha 3 (by decide)), if_neg (ha 2 (by decide)), if_neg (ha 1 (by decide)), if_neg h0]

/-- Settles O41: the write completes, its four bytes are those of the register, and every other byte is as before. -/
theorem storeWord : Obligations.StoreWord := by
  intro disp16 disp23 reg1 src s addr hm hal had hco
  have hwrite := memWrite_ok_iff (v := s.x src) |>.mpr ⟨hal, had, hco, rfl⟩
  have hnext : ∀ len, finishStore s addr src len = .next ((s.setMem (s.mem.writeWord addr (s.x src))).advance len) :=
    fun len => finishStore_next.mpr ⟨_, hwrite, rfl⟩
  have hinside := fun k (hk : k < 4) => read_writeWord_inside hm.1 addr (s.x src) hk
  have houtside := fun a => read_writeWord_outside hm.1 addr (s.x src) (a := a)
  constructor
  · rintro rfl
    exact ⟨_, hnext 4#32, hinside, houtside, fun _ => rfl, rfl, rfl, rfl, rfl, rfl⟩
  · rintro rfl
    exact ⟨_, hnext 6#32, hinside, houtside, fun _ => rfl, rfl, rfl, rfl, rfl, rfl⟩

/-! ### A load after a store -/

/-- Two aligned words at different addresses have no byte in common. -/
theorem words_disjoint {a b : Word} (ha : a.toNat % 4 = 0) (hb : b.toNat % 4 = 0) (hne : a ≠ b) {j k : Nat} (hj : j < 4)
    (hk : k < 4) : a + BitVec.ofNat 32 j ≠ b + BitVec.ofNat 32 k := by
  intro e
  have hsum := congrArg BitVec.toNat e
  simp only [BitVec.toNat_add, BitVec.toNat_ofNat] at hsum
  have hla := a.isLt
  have hlb := b.isLt
  exact hne (BitVec.eq_of_toNat_eq (by omega))

/-- The bytes of a word put together. -/
theorem bytes_append (v : Word) : v.extractLsb' 24 8 ++ v.extractLsb' 16 8 ++ v.extractLsb' 8 8 ++ v.extractLsb' 0 8 = v := by
  have h3 : v.extractLsb' 24 8 ++ v.extractLsb' 16 8 = v.extractLsb' 16 16 := append_extract v 16 8 8
  have h2 : v.extractLsb' 16 16 ++ v.extractLsb' 8 8 = v.extractLsb' 8 24 := append_extract v 8 16 8
  have h1 : v.extractLsb' 8 24 ++ v.extractLsb' 0 8 = v.extractLsb' 0 32 := append_extract v 0 24 8
  rw [h3, h2, h1, extract_all]

/-- A word read is its four bytes, by their offsets. -/
theorem wordAt_congr {s t : State} {addr : Word}
    (h : ∀ k, k < 4 → t.byteAt (addr + BitVec.ofNat 32 k) = s.byteAt (addr + BitVec.ofNat 32 k)) :
    t.wordAt addr = s.wordAt addr := by
  have h0 := h 0 (by decide)
  rw [BitVec.add_zero] at h0
  rw [State.wordAt, State.wordAt, h0, h 1 (by decide), h 2 (by decide), h 3 (by decide)]

theorem wordAt_writeWord (hm : s.mem.Rising) (addr v : Word) : (s.setMem (s.mem.writeWord addr v)).wordAt addr = v := by
  have hbyte : ∀ k, k < 4 → (s.setMem (s.mem.writeWord addr v)).byteAt (addr + BitVec.ofNat 32 k) = v.extractLsb' (8 * k) 8 :=
    fun k hk => read_writeWord_inside hm addr v hk
  have h0 := hbyte 0 (by decide)
  rw [BitVec.add_zero] at h0
  rw [State.wordAt, h0, hbyte 1 (by decide), hbyte 2 (by decide), hbyte 3 (by decide)]
  exact bytes_append v

/-- Settles O45: the bytes of the word are those written, and no other aligned word has one of them. -/
theorem loadSeesLatestStore : Obligations.LoadSeesLatestStore := by
  intro s t addr other v hm hw
  obtain ⟨hal, had, hco, rfl⟩ := memWrite_ok_iff.mp hw
  refine ⟨memRead_ok_iff.mpr ⟨hal, had, (wordAt_writeWord hm.1 addr v).symm⟩, fun hne => ?_⟩
  cases hread : s.memRead other with
  | error f =>
    have hfault := memRead_error_iff.mp hread
    exact memRead_error_iff.mpr hfault
  | ok u =>
    obtain ⟨hal', had', rfl⟩ := memRead_ok_iff.mp hread
    refine memRead_ok_iff.mpr ⟨hal', had', (wordAt_congr fun j hj => ?_).symm⟩
    exact read_writeWord_outside hm.1 addr v fun k hk => words_disjoint hal' hal hne hj hk

end Sys2Proof.Machine
end

section
/-! PROOFS of fetch and decode: the order of the tests (30_encoding.md R98, 60_exceptions.md R194), O9 to O15. -/

namespace Sys2Proof

variable {hw0 hw1 : Half} {h : Head} {hs rest : List Half}

/-! ### What decoding answers where it answers no instruction -/

theorem decode_reserved_first (hh : headOf hw0 = none) : decode (hw0 :: rest) = .reserved hw0 := by
  simp [decode, hh]

theorem decode_missing_second (hh : headOf hw0 = some h) (hl : 2 ≤ h.halfwords) : decode [hw0] = .missing 1 := by
  simp [decode, hh, show h.halfwords ≠ 1 by omega]

theorem decode_reserved_second (hh : headOf hw0 = some h) (hl : 2 ≤ h.halfwords) (h2 : h.secondOk hw1 = false) :
    decode (hw0 :: hw1 :: rest) = .reserved hw0 := by
  simp [decode, hh, show h.halfwords ≠ 1 by omega, h2]

theorem decode_missing_third (hh : headOf hw0 = some h) (hl : h.halfwords = 3) (h2 : h.secondOk hw1 = true) :
    decode [hw0, hw1] = .missing 2 := by
  simp [decode, hh, hl, h2]

/-- What decoding can answer: an instruction, the first halfword as reserved, or that the list ends too early. -/
theorem decode_cases (hw0 : Half) (rest : List Half) : (∃ i tl, decode (hw0 :: rest) = .ok i tl) ∨
    decode (hw0 :: rest) = .reserved hw0 ∨
      decode (hw0 :: rest) = .missing (hw0 :: rest).length ∧ (hw0 :: rest).length < 3 := by
  cases hh : headOf hw0 with
  | none => exact .inr (.inl (decode_reserved_first hh))
  | some h =>
    by_cases hl : h.halfwords = 1
    · exact .inl ⟨_, _, decode_one hh hl rfl⟩
    have hl2 : 2 ≤ h.halfwords := by have := halfwords_cases h; omega
    match rest with
    | [] => exact .inr (.inr ⟨decode_missing_second hh hl2, by simp⟩)
    | hw1 :: rest1 =>
      cases h2 : h.secondOk hw1 with
      | false => exact .inr (.inl (decode_reserved_second hh hl2 h2))
      | true =>
        by_cases hl' : h.halfwords = 2
        · exact .inl ⟨_, _, decode_two hh hl' h2 rfl⟩
        have hl3 : h.halfwords = 3 := by have := halfwords_cases h; omega
        match rest1 with
        | [] => exact .inr (.inr ⟨decode_missing_third hh hl3 h2, by simp⟩)
        | hw2 :: rest2 => exact .inl ⟨_, _, decode_three hh hl3 h2 rfl⟩

/-- A reserved encoding is named by its first halfword. -/
theorem decode_eq_reserved (hd : decode hs = .reserved hw0) : ∃ rest, hs = hw0 :: rest := by
  cases hs with
  | nil => cases hd
  | cons w tl =>
    obtain ⟨i, rest, h⟩ | h | ⟨h, -⟩ := decode_cases w tl
    · cases h.symm.trans hd
    · exact ⟨tl, congrArg (· :: tl) (Decoded.reserved.inj (h.symm.trans hd))⟩
    · cases h.symm.trans hd

/-- A halfword is missing where the list ends, and it is at most the third. -/
theorem decode_eq_missing {k : Nat} (hd : decode hs = .missing k) : k = hs.length ∧ k < 3 := by
  cases hs with
  | nil => cases hd; exact ⟨rfl, by decide⟩
  | cons w tl =>
    obtain ⟨i, rest, h⟩ | h | ⟨h, hlt⟩ := decode_cases w tl
    · cases h.symm.trans hd
    · cases h.symm.trans hd
    · cases h.symm.trans hd
      exact ⟨rfl, hlt⟩

/-- A Format I or II halfword whose fixed bits are those of no row. -/
theorem headOf_formatI_eq_none {r2 r1 : BitVec 5} {op : BitVec 6} (hb : ∀ h, ¬headBits h (op.extractLsb' 2 4) op r2) :
    headOf (r2 ++ op ++ r1) = none := by
  obtain ⟨hop, hr2, -, -, hop4⟩ := fields_formatI r2 op r1
  refine Option.eq_none_iff_forall_ne_some.mpr fun h hh => hb h ?_
  rw [headOf_iff, hop, hr2, hop4] at hh
  exact hh

end Sys2Proof

namespace Sys2Proof.Machine

variable {s : State} {a : Word} {hw0 hw1 : Half} {h : Head} {f : Fault} {i : Instr}

/-! ### The halfwords that can be fetched -/

theorem fetchWindow_ok (hf : s.fetchHalfword a = .ok hw0) (n : Nat) :
    s.fetchWindow a (n + 1) = hw0 :: s.fetchWindow (a + 2#32) n := by
  simp [State.fetchWindow, hf]

theorem fetchWindow_error (hf : s.fetchHalfword a = .error f) (n : Nat) : s.fetchWindow a (n + 1) = [] := by
  simp [State.fetchWindow, hf]

theorem add_two_add (a : Word) (j : Nat) : a + 2#32 + BitVec.ofNat 32 (2 * j) = a + BitVec.ofNat 32 (2 * (j + 1)) := by
  rw [BitVec.add_assoc, ← BitVec.ofNat_add, Nat.mul_succ, Nat.add_comm 2]

/-- The window holds the halfwords before the first that cannot be fetched. -/
theorem fetchWindow_length (s : State) (n : Nat) (a : Word) :
    (∀ j, j < (s.fetchWindow a n).length → ∃ h, s.fetchHalfword (a + BitVec.ofNat 32 (2 * j)) = .ok h) ∧
      ((s.fetchWindow a n).length < n →
        ∃ f, s.fetchHalfword (a + BitVec.ofNat 32 (2 * (s.fetchWindow a n).length)) = .error f) := by
  have h0 : a + BitVec.ofNat 32 (2 * 0) = a := BitVec.add_zero a
  induction n generalizing a with
  | zero => exact ⟨nofun, nofun⟩
  | succ n ih =>
    cases hf : s.fetchHalfword a with
    | error f =>
      rw [fetchWindow_error hf]
      exact ⟨nofun, fun _ => ⟨f, h0.symm ▸ hf⟩⟩
    | ok w =>
      obtain ⟨hbefore, hend⟩ := ih (a + 2#32) (BitVec.add_zero _)
      rw [fetchWindow_ok hf, List.length_cons]
      constructor
      · intro j hj
        cases j with
        | zero => exact ⟨w, h0.symm ▸ hf⟩
        | succ j => exact add_two_add a j ▸ hbefore j (Nat.lt_of_succ_lt_succ hj)
      · intro hlt
        exact add_two_add a _ ▸ hend (Nat.lt_of_succ_lt_succ hlt)

/-! ### Fetch and decode together -/

theorem fetchInstr_ok_iff : s.fetchInstr = .ok i ↔ ∃ rest, decode (s.fetchWindow s.pc 3) = .ok i rest := by
  unfold State.fetchInstr
  cases decode (s.fetchWindow s.pc 3) <;> simp

theorem fetchInstr_error_iff : s.fetchInstr = .error f ↔
    (∃ hw0, decode (s.fetchWindow s.pc 3) = .reserved hw0 ∧ f = .reservedInstruction s.pc hw0) ∨
      ∃ k, decode (s.fetchWindow s.pc 3) = .missing k ∧ f = .accessNotAdmitted s.pc (s.pc + BitVec.ofNat 32 (2 * k)) := by
  unfold State.fetchInstr
  cases decode (s.fetchWindow s.pc 3) <;> simp [eq_comm]

theorem step_of_fetchInstr (hs : s.faulted = none) (hi : s.fetchInstr = .ok i) : step s = exec i s := by
  simp [step, hs, hi]

theorem step_of_reserved (hs : s.faulted = none) (hd : decode (s.fetchWindow s.pc 3) = .reserved hw0) :
    step s = .fault (.reservedInstruction s.pc hw0) :=
  step_fault.mpr (.inr ⟨hs, .inl (fetchInstr_error_iff.mpr (.inl ⟨hw0, hd, rfl⟩))⟩)

theorem step_of_missing {k : Nat} (hs : s.faulted = none) (hd : decode (s.fetchWindow s.pc 3) = .missing k) :
    step s = .fault (.accessNotAdmitted s.pc (s.pc + BitVec.ofNat 32 (2 * k))) :=
  step_fault.mpr (.inr ⟨hs, .inl (fetchInstr_error_iff.mpr (.inr ⟨k, hd, rfl⟩))⟩)

theorem step_of_reserved_first (hs : s.faulted = none) (h0 : s.fetchHalfword s.pc = .ok hw0) (hh : headOf hw0 = none) :
    step s = .fault (.reservedInstruction s.pc hw0) :=
  step_of_reserved hs (fetchWindow_ok h0 2 ▸ decode_reserved_first hh)

theorem step_of_reserved_second (hs : s.faulted = none) (h0 : s.fetchHalfword s.pc = .ok hw0)
    (h1 : s.fetchHalfword (s.pc + 2#32) = .ok hw1) (hh : headOf hw0 = some h) (hl : 2 ≤ h.halfwords)
    (h2 : h.secondOk hw1 = false) : step s = .fault (.reservedInstruction s.pc hw0) := by
  refine step_of_reserved hs ?_
  rw [fetchWindow_ok h0, fetchWindow_ok h1]
  exact decode_reserved_second hh hl h2

/-- Settles O9: what the window decodes to is what is fetched, and the step runs it. -/
theorem stepRunsDecodedInstruction : Obligations.StepRunsDecodedInstruction :=
  fun _ _ rest hs _ hd => step_of_fetchInstr hs (fetchInstr_ok_iff.mpr ⟨rest, hd⟩)

/-- Settles O14: the two bytes are in `CODE`, or the fetch faults. -/
theorem fetchReadsOnlyCode : Obligations.FetchReadsOnlyCode := by
  intro s a
  constructor
  · intro h0 h1
    exact fetchHalfword_ok.mpr ⟨by rw [h0, h1]; rfl, rfl⟩
  · intro h
    exact fetchHalfword_error.mpr ⟨Bool.and_eq_false_iff.mpr h, rfl⟩

/-- Settles O15: the window ends at the first halfword that cannot be fetched, and decoding tests what is before it. -/
theorem fetchAndDecodeFaultOrder : Obligations.FetchAndDecodeFaultOrder := by
  intro s hs
  refine ⟨fun f hf => ?first, fun hw0 h0 => ⟨fun hh => step_of_reserved_first hs h0 hh, fun h hh hl =>
    ⟨fun f hf => ?second, fun hw1 h1 => ⟨fun h2 => step_of_reserved_second hs h0 h1 hh hl h2, fun h2 hl3 f hf => ?third⟩⟩⟩⟩
  case first =>
    have hstep := step_of_missing (k := 0) hs (fetchWindow_error hf 2 ▸ rfl)
    rwa [Nat.mul_zero, BitVec.add_zero] at hstep
  case second =>
    refine step_of_missing (k := 1) hs ?_
    rw [fetchWindow_ok h0, fetchWindow_error hf]
    exact decode_missing_second hh hl
  case third =>
    have hf' : s.fetchHalfword (s.pc + 2#32 + 2#32) = .error f := by rw [BitVec.add_assoc]; exact hf
    refine step_of_missing (k := 2) hs ?_
    rw [fetchWindow_ok h0, fetchWindow_ok h1, fetchWindow_error hf']
    exact decode_missing_third hh hl3 h2

/-! ### Reserved encodings -/

/-- Every head is that of a row, with the row's fixed bits in some second halfword. -/
theorem exists_row (h : Head) : ∃ (e : Encoding) (hw1 : Half), e.head = h ∧ e.secondBits hw1 := by
  cases h with
  | addReg => exact ⟨.addReg, 0, rfl, trivial⟩
  | addImm5 => exact ⟨.addImm5, 0, rfl, trivial⟩
  | addi => exact ⟨.addi, 0, rfl, trivial⟩
  | sub => exact ⟨.sub, 0, rfl, trivial⟩
  | movReg => exact ⟨.movReg, 0, rfl, trivial⟩
  | movImm5 => exact ⟨.movImm5, 0, rfl, trivial⟩
  | movImm32 => exact ⟨.movImm32, 0, rfl, trivial⟩
  | jmpReg => exact ⟨.jmpReg, 0, rfl, trivial⟩
  | jmpDisp32 => exact ⟨.jmpDisp32, 0, rfl, rfl⟩
  | cmpReg => exact ⟨.cmpReg, 0, rfl, trivial⟩
  | cmpImm5 => exact ⟨.cmpImm5, 0, rfl, trivial⟩
  | bcond => exact ⟨.bcond, 0, rfl, trivial⟩
  | ldwDisp16 => exact ⟨.ldwDisp16, 1, rfl, rfl⟩
  | stwDisp16 => exact ⟨.stwDisp16, 1, rfl, rfl⟩
  | formatXIV => exact ⟨.ldwDisp23, 0b01001, rfl, rfl⟩

theorem afterStep_of_fault (hf : step s = .fault f) : s.afterStep = s.setFaulted f := by
  simp [State.afterStep, hf]

/-- Settles O11: a first halfword that no row selects has no head. -/
theorem reservedFirstHalfwordFaults : Obligations.ReservedFirstHalfwordFaults := by
  intro s hw0 hs h0 hnone
  have hh : headOf hw0 = none := by
    refine Option.eq_none_iff_forall_ne_some.mpr fun h hh => ?_
    obtain ⟨e, hw1, rfl, hbits⟩ := exists_row h
    have hsel := (selects_iff e hw0 hw1 0#16).mpr ⟨hh, hbits⟩
    rw [hnone] at hsel
    cases hsel
  have hstep := step_of_reserved_first hs h0 hh
  exact ⟨hstep, afterStep_of_fault hstep⟩

/-- Settles O12: r0 as reg2 is no row of MOV. -/
theorem movToR0IsReserved : Obligations.MovToR0IsReserved := by
  intro s low hs
  refine ⟨fun h0 => step_of_reserved_first hs h0 (headOf_formatI_eq_none (r2 := 0#5) (op := 0b000000#6) fun h => ?_),
    fun h0 => step_of_reserved_first hs h0 (headOf_formatI_eq_none (r2 := 0#5) (op := 0b010000#6) fun h => ?_)⟩
  · cases h <;> simp [headBits]
  · cases h <;> simp [headBits]

/-- Settles O13: the fixed bits of the first halfword, then those of the second, row by row. -/
theorem wrongFixedBitsAreReserved : Obligations.WrongFixedBitsAreReserved := by
  intro s r2 r1 hw1 hs
  refine ⟨fun op hop hr2 h0 => ?reg2, fun h0 h1 hb => ?jump, fun op hop h0 h1 hb => ?access16, fun h0 h1 h9 h15 => ?formatXIV⟩
  case reg2 =>
    refine step_of_reserved_first hs h0 (headOf_formatI_eq_none fun h => ?_)
    simp only [List.mem_cons, List.not_mem_nil, or_false] at hop
    obtain rfl | rfl | rfl | rfl := hop <;> cases h <;> simp [headBits, hr2]
  case jump =>
    refine step_of_reserved_second (h := .jmpDisp32) hs h0 h1 (headOf_formatI ⟨rfl, rfl⟩) (by decide) ?_
    rw [Head.secondOk, hb]
    rfl
  case access16 =>
    simp only [List.mem_cons, List.not_mem_nil, or_false] at hop
    obtain rfl | rfl := hop
    · exact step_of_reserved_second (h := .ldwDisp16) hs h0 h1 (headOf_formatI rfl) (by decide) hb
    · exact step_of_reserved_second (h := .stwDisp16) hs h0 h1 (headOf_formatI rfl) (by decide) hb
  case formatXIV =>
    refine step_of_reserved_second (h := .formatXIV) hs h0 h1 (headOf_formatI ⟨rfl, rfl⟩) (by decide) ?_
    rw [← Bool.not_eq_true, secondOk_formatXIV_iff, not_or]
    exact ⟨h9, h15⟩

/-! ### An instruction that stands in `CODE` -/

/-- Halfwords whose bytes stand in `CODE` are what is fetched there. -/
theorem fetchWindow_of_holdsCode {hs : List Half} (hc : s.HoldsCode a (bytesOfHalves hs)) (n : Nat) :
    ∃ b, s.fetchWindow a (hs.length + n) = hs ++ s.fetchWindow b n := by
  induction hs generalizing a with
  | nil => exact ⟨a, by rw [List.length_nil, Nat.zero_add, List.nil_append]⟩
  | cons w tl ih =>
    obtain ⟨hin0, hlow, hin1, hup, htl⟩ := hc
    rw [BitVec.add_assoc] at htl
    obtain ⟨b, htail⟩ := ih htl
    have hw : s.fetchHalfword a = .ok w :=
      fetchHalfword_ok.mpr ⟨by rw [hin0, hin1]; rfl, by rw [hlow, hup, halfOfBytes_bytes]⟩
    refine ⟨b, ?_⟩
    rw [List.length_cons, Nat.add_right_comm, fetchWindow_ok hw, List.cons_append]
    exact congrArg (w :: ·) htail

theorem encode_length (i : Instr) : (encode i).length = i.encoding.head.halfwords := by
  cases i <;> rfl

/-- The instruction whose bytes stand in `CODE` at the `pc` is the one fetched. -/
theorem fetchInstr_of_holdsCode (hw : i.wellFormed = true) (hc : s.HoldsCode s.pc (encodeBytes i)) :
    s.fetchInstr = .ok i := by
  have hlen : (encode i).length ≤ 3 := by
    have hcases := halfwords_cases i.encoding.head
    rw [encode_length]
    omega
  obtain ⟨b, hwindow⟩ := fetchWindow_of_holdsCode hc (3 - (encode i).length)
  rw [Nat.add_sub_cancel' hlen] at hwindow
  exact fetchInstr_ok_iff.mpr ⟨_, hwindow ▸ decodeOfEncode i _ hw⟩

/-- Settles O10: what stands in `CODE` is what is fetched, and the step runs it. -/
theorem stepRunsEncodedInstruction : Obligations.StepRunsEncodedInstruction :=
  fun _ _ hs hw hc => step_of_fetchInstr hs (fetchInstr_of_holdsCode hw hc)

/-- Where fetch and decode fault, no instruction stands in `CODE`. -/
theorem holdsNoInstruction_of_error (hf : s.fetchInstr = .error f) : s.HoldsNoInstruction := by
  intro i hw hc
  rw [fetchInstr_of_holdsCode hw hc] at hf
  cases hf

end Sys2Proof.Machine
end

section
/-! PROOFS of the faults (60_exceptions.md R190, R192, R205): O16 to O18. -/

namespace Sys2Proof.Machine

variable {s : State} {f : Fault} {i : Instr}

/-- Settles O16: the mark is all that is written, and a state with the mark has no other step. -/
theorem faultWritesOnlyTheMark : Obligations.FaultWritesOnlyTheMark := by
  intro s f hf
  have hafter := afterStep_of_fault hf
  have hstep : step s.afterStep = .fault f := hafter ▸ step_fault.mpr (.inl rfl)
  have hnotFinal : ∀ {u : State}, step u = .fault f → ¬u.Final := by
    rintro u hu ⟨-, hnext⟩
    rw [hu] at hnext
    cases hnext
  refine ⟨hafter, hstep, ?_, hnotFinal hf, hnotFinal hstep⟩
  rw [afterStep_of_fault hstep, hafter]
  rfl

/-- No instruction is without a meaning (60_exceptions.md R205). -/
theorem exec_ne_refused (i : Instr) (s : State) (r : Refusal) : exec i s ≠ .refused r := by
  have hload : ∀ addr dest len, finishLoad s addr dest len ≠ .refused r := by
    intro addr dest len
    unfold finishLoad
    split <;> exact nofun
  have hstore : ∀ addr src len, finishStore s addr src len ≠ .refused r := by
    intro addr src len
    unfold finishStore
    split <;> exact nofun
  cases i using Instr.casesRows with
  | ldwDisp16 => exact hload _ _ _
  | ldwDisp23 => exact hload _ _ _
  | stwDisp16 => exact hstore _ _ _
  | stwDisp23 => exact hstore _ _ _
  | branch c d =>
    rw [exec_branch, branchOn]
    split <;> exact nofun
  | _ => exact nofun

/-- Settles O18: the mark, fetch and decode answer faults, and no instruction is refused. -/
theorem stepNeverRefuses : Obligations.StepNeverRefuses := by
  intro s r h
  unfold step at h
  split at h
  · cases h
  · split at h
    · cases h
    · exact exec_ne_refused _ s r h

/-- An instruction that faults is an LD.W whose read does, or an ST.W whose write does. -/
theorem exec_fault (hi : s.fetchInstr = .ok i) (h : exec i s = .fault f) :
    (∃ addr, s.FetchesLoad addr ∧ s.memRead addr = .error f) ∨
      ∃ addr v, s.FetchesStore addr ∧ s.memWrite addr v = .error f := by
  cases i using Instr.casesRows with
  | ldwDisp16 d reg1 reg2 => exact .inl ⟨_, .inl ⟨d, reg1, reg2, hi, rfl⟩, finishLoad_fault.mp h⟩
  | ldwDisp23 d reg1 reg3 => exact .inl ⟨_, .inr ⟨d, reg1, reg3, hi, rfl⟩, finishLoad_fault.mp h⟩
  | stwDisp16 reg2 d reg1 => exact .inr ⟨_, _, .inl ⟨d, reg1, reg2, hi, rfl⟩, finishStore_fault.mp h⟩
  | stwDisp23 reg3 d reg1 => exact .inr ⟨_, _, .inr ⟨d, reg1, reg3, hi, rfl⟩, finishStore_fault.mp h⟩
  | branch c d =>
    rw [exec_branch, branchOn] at h
    split at h <;> cases h
  | _ => cases h

/-- A reserved encoding: the first halfword was fetched. -/
theorem fetchHalfword_of_reserved {hw0 : Half} (hd : decode (s.fetchWindow s.pc 3) = .reserved hw0) :
    s.fetchHalfword s.pc = .ok hw0 := by
  obtain ⟨rest, hrest⟩ := decode_eq_reserved hd
  cases h0 : s.fetchHalfword s.pc with
  | error f => rw [fetchWindow_error h0] at hrest; cases hrest
  | ok w => rw [fetchWindow_ok h0] at hrest; rw [(List.cons.inj hrest).1]

/-- A missing halfword: it is the first of the three that cannot be fetched. -/
theorem fetchHalfword_of_missing {k : Nat} (hd : decode (s.fetchWindow s.pc 3) = .missing k) :
    k < 3 ∧ (s.inCode (s.pc + BitVec.ofNat 32 (2 * k)) = false ∨ s.inCode (s.pc + BitVec.ofNat 32 (2 * k) + 1#32) = false) ∧
      ∀ j, j < k → ∃ h, s.fetchHalfword (s.pc + BitVec.ofNat 32 (2 * j)) = .ok h := by
  obtain ⟨rfl, hk⟩ := decode_eq_missing hd
  obtain ⟨hbefore, hend⟩ := fetchWindow_length s 3 s.pc
  obtain ⟨f, hf⟩ := hend hk
  exact ⟨hk, Bool.and_eq_false_iff.mp (fetchHalfword_error.mp hf).1, hbefore⟩

/-- Settles O17: a fault of fetch and decode, or of a read, or of a write, each with its cause. -/
theorem faultRecordsItsCause : Obligations.FaultRecordsItsCause := by
  intro s f hs hf
  obtain hmark | ⟨-, hfetch | ⟨i, hi, hx⟩⟩ := step_fault.mp hf
  · rw [hs] at hmark
    cases hmark
  · have hno := holdsNoInstruction_of_error hfetch
    obtain ⟨hw0, hd, rfl⟩ | ⟨k, hd, rfl⟩ := fetchInstr_error_iff.mp hfetch
    · exact ⟨rfl, fetchHalfword_of_reserved hd, hno⟩
    · obtain ⟨hk, hout, hbefore⟩ := fetchHalfword_of_missing hd
      exact ⟨rfl, .inl ⟨hno, k, hk, rfl, hout, hbefore⟩⟩
  · obtain ⟨addr, hload, hread⟩ | ⟨addr, v, hstore, hwrite⟩ := exec_fault hi hx
    · obtain ⟨hal, rfl⟩ | ⟨hal, had, rfl⟩ := memRead_error_iff.mp hread
      · exact ⟨rfl, hal, .inl hload⟩
      · exact ⟨rfl, .inr (.inl ⟨hal, hload, had⟩)⟩
    · obtain ⟨hal, rfl⟩ | ⟨hal, hout, rfl⟩ := memWrite_error_iff.mp hwrite
      · exact ⟨rfl, hal, .inr hstore⟩
      · exact ⟨rfl, .inr (.inr ⟨hal, hstore, hout⟩)⟩

end Sys2Proof.Machine
end

section
/-! PROOFS of the invariant: every step keeps it (10_state.md R22, R24, R38, 20_memory.md R65), O46 and O49. -/

namespace Sys2Proof.Machine

variable {s t : State} {i : Instr}

/-! ### The `pc` stays even -/

/-- Every length is an even number of bytes (30_encoding.md R80). -/
theorem lengthBytes_even (i : Instr) : (BitVec.ofNat 32 i.lengthBytes).getLsbD 0 = false := by
  rw [lengthBytes_eq_head]
  obtain hl | hl | hl := halfwords_cases i.encoding.head <;> rw [hl] <;> rfl

theorem jump_pc_even (s : State) (x : Word) : (s.jump x).pc.getLsbD 0 = false := (jump_spec s x).2.1

/-- An instruction goes on at an even address: by its length, or by the mask of a transfer (10_state.md R25, R26). -/
theorem exec_pc_even (hpc : s.pc.getLsbD 0 = false) (h : exec i s = .next t) : t.pc.getLsbD 0 = false := by
  have hflow : i.transfersControl = false → t.pc.getLsbD 0 = false := fun hi =>
    sequentialFlow i s t hi h ▸ add_even hpc (lengthBytes_even i)
  cases i using Instr.casesRows with
  | jmpReg => cases h; exact jump_pc_even s _
  | jmpDisp32 => cases h; exact jump_pc_even s _
  | branch c d =>
    rw [exec_branch, branchOn_next] at h
    split at h <;> rw [h]
    · exact jump_pc_even s _
    · exact add_even hpc rfl
  | _ => exact hflow rfl

/-! ### Memory -/

/-- A cell of memory after a word is written is at one of its four addresses or was there. -/
theorem mem_writeWord {m : Memory} {addr v : Word} {c : Host.Cell} (h : c ∈ m.writeWord addr v) :
    (∃ a ∈ wordAddrs addr, c.1 = a.toNat) ∨ c ∈ m := by
  have hat : ∀ {a b}, a ∈ wordAddrs addr → c = (a.toNat, b) ∧ b ≠ Memory.unlisted → ∃ a ∈ wordAddrs addr, c.1 = a.toNat :=
    fun ha hc => ⟨_, ha, congrArg Prod.fst hc.1⟩
  obtain h3 | h := mem_write h
  · exact .inl (hat (by simp [wordAddrs]) h3)
  obtain h2 | h := mem_write h
  · exact .inl (hat (by simp [wordAddrs]) h2)
  obtain h1 | h := mem_write h
  · exact .inl (hat (by simp [wordAddrs]) h1)
  obtain h0 | h := mem_write h
  · exact .inl (hat (by simp [wordAddrs]) h0)
  exact .inr h

/-- The parts of the invariant that speak of no `pc`. -/
structure StoreInv (s : State) : Prop where
  mem_wf : Memory.wf s.mem
  mem_admitted : ∀ c ∈ s.mem, regionsHave s.admitted c.1 = true
  r0_zero : s.regs[0] = 0x00000000#32
  code_admitted : ∀ a, s.inCode a = true → s.inAdmit a = true

theorem inv_iff : s.Inv ↔ StoreInv s ∧ s.pc.getLsbD 0 = false :=
  ⟨fun h => ⟨⟨h.mem_wf, h.mem_admitted, h.r0_zero, h.code_admitted⟩, h.pc_even⟩,
    fun ⟨h, hpc⟩ => ⟨h.mem_wf, h.mem_admitted, hpc, h.r0_zero, h.code_admitted⟩⟩

/-- The memory, the sets and the slot of r0 are all that these parts depend on. -/
theorem StoreInv.of_fields (hs : StoreInv s) (hm : t.mem = s.mem) (ha : t.admitted = s.admitted) (hc : t.code = s.code)
    (h0 : t.regs[0] = s.regs[0]) : StoreInv t where
  mem_wf := hm ▸ hs.mem_wf
  mem_admitted := by rw [hm, ha]; exact hs.mem_admitted
  r0_zero := h0.trans hs.r0_zero
  code_admitted := fun a hin => (inAdmit_congr ha a).trans (hs.code_admitted a ((inCode_congr hc a).symm.trans hin))

theorem StoreInv.memWrite {u : State} {addr v : Word} (hs : StoreInv s) (hw : s.memWrite addr v = .ok u) : StoreInv u := by
  obtain ⟨-, had, -, rfl⟩ := memWrite_ok.mp hw
  refine ⟨writeWord_wf hs.mem_wf addr v, fun c hc => ?_, hs.r0_zero, hs.code_admitted⟩
  obtain ⟨a, ha, hca⟩ | hc := mem_writeWord hc
  · rw [hca]
    exact List.all_eq_true.mp had a ha
  · exact hs.mem_admitted c hc

theorem StoreInv.effect (hs : StoreInv s) (h : Effect s t) : StoreInv t := by
  cases h with
  | move dest v p h => exact hs.of_fields (by simp [h]) (by simp [h]) (by simp [h]) (h ▸ setX_slot0 s dest v)
  | arith dest r p h => exact hs.of_fields (by simp [h]) (by simp [h]) (by simp [h]) (h ▸ setX_slot0 s dest r.r)
  | compare r p h => exact hs.of_fields (by simp [h]) (by simp [h]) (by simp [h]) (by simp [h])
  | transfer p h => exact hs.of_fields (by simp [h]) (by simp [h]) (by simp [h]) (by simp [h])
  | store addr v p u hw h => exact (hs.memWrite hw).of_fields (by simp [h]) (by simp [h]) (by simp [h]) (by simp [h])

/-- Settles O46: the effect keeps the store, the instruction keeps the `pc` even. -/
theorem stepKeepsInvariant : Obligations.StepKeepsInvariant := by
  intro s t hs h
  obtain ⟨hstore, hpc⟩ := inv_iff.mp hs
  obtain ⟨-, i, -, hi⟩ := step_next.mp h
  exact inv_iff.mpr ⟨hstore.effect (exec_effect hi), exec_pc_even hpc hi⟩

/-! ### The program -/

/-- What a run leaves of the program: the two sets, and every byte of `CODE`. -/
structure ProgramSame (s t : State) : Prop where
  code : t.code = s.code
  admitted : t.admitted = s.admitted
  bytes : ∀ a, s.inCode a = true → t.byteAt a = s.byteAt a

theorem ProgramSame.of_mem (hc : t.code = s.code) (ha : t.admitted = s.admitted) (hm : t.mem = s.mem) : ProgramSame s t :=
  ⟨hc, ha, fun a _ => byteAt_congr hm a⟩

theorem ProgramSame.trans {u : State} (h : ProgramSame s u) (h' : ProgramSame u t) : ProgramSame s t :=
  ⟨h'.code.trans h.code, h'.admitted.trans h.admitted, fun a ha =>
    (h'.bytes a ((inCode_congr h.code a).trans ha)).trans (h.bytes a ha)⟩

/-- A write that completes is outside `CODE`. -/
theorem programSame_memWrite {addr v : Word} (hm : Memory.wf s.mem) (hw : s.memWrite addr v = .ok t) : ProgramSame s t := by
  obtain ⟨-, -, hout, rfl⟩ := memWrite_ok_iff.mp hw
  refine ⟨rfl, rfl, fun a ha => read_writeWord_outside hm.1 addr v fun k hk e => ?_⟩
  rw [e, hout k hk] at ha
  cases ha

theorem programSame_effect (hm : Memory.wf s.mem) (h : Effect s t) : ProgramSame s t := by
  cases h with
  | move dest v p h => exact .of_mem (by simp [h]) (by simp [h]) (by simp [h])
  | arith dest r p h => exact .of_mem (by simp [h]) (by simp [h]) (by simp [h])
  | compare r p h => exact .of_mem (by simp [h]) (by simp [h]) (by simp [h])
  | transfer p h => exact .of_mem (by simp [h]) (by simp [h]) (by simp [h])
  | store addr v p u hw h => exact (programSame_memWrite hm hw).trans (.of_mem (by simp [h]) (by simp [h]) (by simp [h]))

/-- A run leaves the program as it is. -/
theorem programSame_of_runsTo : ∀ n s t, RunsTo n s t → s.Inv → ProgramSame s t :=
  runsTo_induction (P := fun s t => s.Inv → ProgramSame s t) (fun _ _ => .of_mem rfl rfl rfl)
    fun s u _ hstep hrest hs =>
      (programSame_effect hs.mem_wf (step_effect hstep)).trans (hrest (stepKeepsInvariant s u hs hstep))

/-- The same program is fetched from both states. -/
theorem ProgramSame.fetchHalfword_iff (h : ProgramSame s t) (a : Word) (w : Half) :
    t.fetchHalfword a = .ok w ↔ s.fetchHalfword a = .ok w := by
  rw [fetchHalfword_ok, fetchHalfword_ok, inCode_congr h.code, inCode_congr h.code]
  refine and_congr_right fun hin => ?_
  obtain ⟨hin0, hin1⟩ := Bool.and_eq_true_iff.mp hin
  rw [h.bytes a hin0, h.bytes _ hin1]

/-- Settles O49: a run leaves the program, and a fetch depends on nothing else. -/
theorem codeNeverChanges : Obligations.CodeNeverChanges := by
  intro n s t hs hrun
  have h := programSame_of_runsTo n s t hrun hs
  exact ⟨h.code, h.admitted, h.bytes, h.fetchHalfword_iff⟩

end Sys2Proof.Machine
end

section
/-! PROOFS of the end of a run (70_reset_and_hazards.md R224), O50. -/

namespace Sys2Proof.Machine

variable {s : State} {i : Instr}

/-- A state is final exactly where its instruction leaves it as it is. -/
theorem final_iff (hs : s.faulted = none) (hi : s.fetchInstr = .ok i) : s.Final ↔ exec i s = .next s := by
  rw [State.Final, step_of_fetchInstr hs hi]
  exact and_iff_right hs

/-- Only the `pc` can tell whether a transfer changes the state. -/
theorem setPc_eq_self_iff {v : Word} : s.setPc v = s ↔ v = s.pc :=
  ⟨fun h => congrArg State.pc h, fun h => h ▸ rfl⟩

theorem exec_jump_self_iff {x : Word} : (Host.Outcome.next (s.jump x) : Outcome) = .next s ↔ x &&& 0xFFFFFFFE#32 = s.pc := by
  rw [Host.Outcome.next.injEq]
  exact setPc_eq_self_iff

/-- An instruction that is no transfer changes the `pc`: its length is not 0 modulo 2^32. -/
theorem exec_ne_self (hi : i.transfersControl = false) : exec i s ≠ .next s := by
  intro h
  have hpc := (sequentialFlow i s s hi h).symm
  rw [add_eq_left, lengthBytes_eq_head] at hpc
  obtain hl | hl | hl := halfwords_cases i.encoding.head <;> rw [hl] at hpc <;> cases hpc

/-- A displacement of 9 bits stands for 0 where it is 0. -/
theorem signExtend_eq_zero_iff {d : BitVec 9} : d.signExtend 32 = 0 ↔ d = 0#9 := by
  rw [← BitVec.toInt_inj, ← BitVec.toInt_inj, BitVec.toInt_signExtend_of_le (by decide)]
  rfl

/-- A Bcond leaves the state as it is where it is taken with displacement 0. -/
theorem exec_branch_self_iff {c : Cond} {d : BitVec 9} (hd : evenDisp d = true) (hpc : s.pc.getLsbD 0 = false) :
    exec (.branch c d) s = .next s ↔ d = 0#9 ∧ condHolds c s.flags = true := by
  rw [exec_branch_even hd hpc .rfl, Host.Outcome.next.injEq]
  refine (setPc_eq_self_iff (s := s)).trans ?_
  by_cases hc : condHolds c s.flags = true
  · rw [if_pos hc, add_eq_left, signExtend_eq_zero_iff]
    exact (and_iff_left hc).symm
  · rw [if_neg hc, add_eq_left]
    exact iff_of_false (by decide) fun h => hc h.2

/-- An instruction fetched is well formed. -/
theorem wellFormed_of_fetchInstr (hi : s.fetchInstr = .ok i) : i.wellFormed = true := by
  obtain ⟨rest, hd⟩ := fetchInstr_ok_iff.mp hi
  exact (encodeOfDecode _ i rest hd).1

/-- Settles O50: the transfers by their targets, no other instruction. -/
theorem finalStatesAreSelfBranches : Obligations.FinalStatesAreSelfBranches := by
  intro s i hs hpc hi
  have hw := wellFormed_of_fetchInstr hi
  rw [final_iff hs hi]
  constructor
  · intro h
    cases i using Instr.casesRows with
    | jmpReg reg1 => exact .inr (.inl ⟨reg1, rfl, exec_jump_self_iff.mp h⟩)
    | jmpDisp32 disp32 reg1 => exact .inr (.inr ⟨disp32, reg1, rfl, exec_jump_self_iff.mp h⟩)
    | branch c d =>
      obtain ⟨rfl, hc⟩ := (exec_branch_self_iff (branch_wellFormed c d ▸ hw) hpc).mp h
      exact .inl ⟨c, rfl, hc⟩
    | _ => exact absurd h (exec_ne_self rfl)
  · rintro (⟨c, rfl, hc⟩ | ⟨reg1, rfl, hx⟩ | ⟨disp32, reg1, rfl, hx⟩)
    · exact (exec_branch_self_iff rfl hpc).mpr ⟨rfl, hc⟩
    · exact exec_jump_self_iff.mpr hx
    · exact exec_jump_self_iff.mpr hx

end Sys2Proof.Machine
end

section
/-! PROOFS of reset and launch (10_state.md section 9, 70_reset_and_hazards.md R221, R223), O47, O48 and O51 to O54. -/

namespace Sys2Proof.Machine

/-! ### The state after reset -/

theorem reset_x (r : Reg) : State.reset.x r = 0x00000000#32 := by
  rw [State.x, State.reset, Vector.getElem_replicate, ite_self]

theorem reset_inAdmit (a : Word) : State.reset.inAdmit a = true :=
  regionsHave_iff.mpr ⟨⟨0, addressCount⟩, .head _, Nat.zero_le _, (Nat.zero_add _).symm ▸ a.isLt⟩

/-- Settles O51: the registers, `ADMIT` and the fields of the reset state. -/
theorem resetState : Obligations.ResetState :=
  ⟨rfl, reset_x, rfl, rfl, rfl, reset_inAdmit, fun _ => rfl⟩

/-- Settles O47: no byte is listed, and `CODE` is empty. -/
theorem resetHasInvariant : Obligations.ResetHasInvariant where
  mem_wf := reset_mem_wf
  mem_admitted := nofun
  pc_even := rfl
  r0_zero := rfl
  code_admitted := fun a _ => reset_inAdmit a

/-! ### The launch -/

variable {l : Launch} {s : State}

/-- Bit 0 of an address, as a number. -/
theorem even_iff {a : Word} : a.getLsbD 0 = false ↔ a.toNat % 2 = 0 := by
  rw [BitVec.getLsbD, Nat.testBit_zero, decide_eq_false_iff_not, Nat.mod_two_not_eq_one]

theorem regionsHave_append {rs rs' : List Region} {a : Nat} :
    regionsHave (rs ++ rs') a = (regionsHave rs a || regionsHave rs' a) := List.any_append

/-- Blocks cover a set where they give a byte for every address of it. -/
theorem blocks_cover_iff {rs : List Region} {bs : List Block} : regionsSubset rs (bs.map Block.region) = true ↔
    ∀ a : Word, regionsHave rs a.toNat = true → ∃ b, blocksByte bs a.toNat = some b := by
  rw [regionsSubset_iff_word]
  exact forall₂_congr fun a _ => by rw [← blocksByte_isSome, Option.isSome_iff_exists]

/-- Settles O52: each test of the launch is one premise. -/
theorem launchChecksItsPremises : Obligations.LaunchChecksItsPremises := by
  intro l
  have hinputs : regionsSubset l.admitted (l.code ++ l.inputs.map Block.region) = true ↔
      ∀ a : Word, regionsHave l.admitted a.toNat = true → regionsHave l.code a.toNat = false →
        ∃ b, blocksByte l.inputs a.toNat = some b := by
    rw [regionsSubset_iff_word]
    refine forall₂_congr fun a _ => ?_
    rw [regionsHave_append, ← Option.isSome_iff_exists, blocksByte_isSome]
    cases regionsHave l.code a.toNat <;> simp
  have hcode : regionsSubset l.code l.admitted = true ↔
      ∀ a : Word, regionsHave l.code a.toNat = true → regionsHave l.admitted a.toNat = true := regionsSubset_iff_word
  simp only [launch_ok, exists_and_left, exists_eq, and_true, even_iff, Bool.and_eq_true, hcode, blocks_cover_iff,
    hinputs, and_assoc]

/-- The cells a launch writes are at addresses of `ADMIT`. -/
theorem mem_launch_cells {c : Host.Cell} (hc : c ∈ l.cells) : regionsHave l.admitted c.1 = true ∧ c.1 < addressCount := by
  obtain ⟨-, h⟩ := List.mem_filter.mp hc
  exact (Bool.and_eq_true_iff.mp h).imp_right of_decide_eq_true

theorem launch_memory_wf (l : Launch) : Memory.wf l.memory :=
  writeCells_wf (fun _ hc => (mem_launch_cells hc).2) reset_mem_wf

/-- Settles O48: the launch writes only 32-bit addresses of `ADMIT`, and its tests give the rest. -/
theorem launchHasInvariant : Obligations.LaunchHasInvariant := by
  intro l s h
  obtain ⟨heven, -, hcode, -, -, rfl⟩ := launch_ok.mp h
  refine ⟨⟨launch_memory_wf l, fun c hc => ?_, heven, ?_, regionsSubset_iff_word.mp hcode⟩, rfl⟩
  · obtain hc | hc := mem_writeCells hc
    · exact (mem_launch_cells hc).1
    · cases hc
  · exact Vector.getElem_set_self ..

/-! ### What the launch state holds -/

/-- The byte at an address of `ADMIT` is the one the launch gives for it. -/
theorem launch_byteAt {a : Word} {b : Byte} (ha : regionsHave l.admitted a.toNat = true)
    (hb : (if regionsHave l.code a.toNat then blocksByte l.program a.toNat else blocksByte l.inputs a.toNat) = some b) :
    l.state.byteAt a = b := by
  have hin : (regionsHave l.admitted a.toNat && decide (a.toNat < addressCount)) = true := by
    rw [ha, decide_eq_true a.isLt]; rfl
  show Memory.read l.memory a.toNat = b
  rw [launch_memory_read, launch_cells_lookup, if_pos hin, hb]
  rfl

/-- Settles O53: the premises give a byte for every address, and the launch writes it. -/
theorem launchStateIsAsChosen : Obligations.LaunchStateIsAsChosen := by
  intro l s h
  obtain ⟨-, -, -, hcode, hprogram, hinputs⟩ := (launchChecksItsPremises l).mp ⟨s, h⟩
  obtain ⟨-, -, -, -, -, rfl⟩ := launch_ok.mp h
  refine ⟨rfl, rfl, rfl, rfl, rfl, rfl, fun r hr => ?regs, fun a ha => ?program, fun a ha hc => ?inputs⟩
  case regs =>
    have hne : (0 : Nat) ≠ r := fun e => hr (Fin.ext e.symm)
    simp [State.x, Launch.state, Launch.registers, hr, Vector.getElem_set_ne _ _ hne]
  case program =>
    obtain ⟨b, hb⟩ := hprogram a ha
    rw [hb, launch_byteAt (hcode a ha) ((if_pos ha).trans hb)]
  case inputs =>
    obtain ⟨b, hb⟩ := hinputs a ha hc
    rw [hb, launch_byteAt ha ((if_neg (Bool.not_eq_true _ ▸ hc)).trans hb)]

/-- Settles O54: the launch state holds the program, and a run leaves it. -/
theorem fetchReadsTheProgram : Obligations.FetchReadsTheProgram := by
  intro l s t n h hrun a w
  obtain ⟨-, -, -, hcode, -, -, -, hprogram, -⟩ := launchStateIsAsChosen l s h
  have hin : ∀ x, s.inCode x = regionsHave l.code x.toNat := fun x => by rw [State.inCode, hcode]
  rw [(programSame_of_runsTo n s t hrun (launchHasInvariant l s h).1).fetchHalfword_iff, fetchHalfword_ok,
    Bool.and_eq_true, and_assoc, hin, hin]
  refine and_congr_right fun h0 => and_congr_right fun h1 => ?_
  rw [hprogram a ((hin a).trans h0), hprogram _ ((hin _).trans h1)]
  constructor
  · rintro rfl
    exact ⟨_, _, rfl, rfl, rfl⟩
  · rintro ⟨lo, hi, hlo, hhi, rfl⟩
    cases hlo
    cases hhi
    rfl

end Sys2Proof.Machine
end

section
/-! PROOFS of the loaded word (30_encoding.md section 9), O55. -/

namespace Sys2Proof.Machine

/-! ### What placing bytes leaves and what it writes -/

@[simp] theorem placeCode_pc (bs : List Byte) (s : State) (addr : Word) : (s.placeCode addr bs).pc = s.pc := by
  induction bs generalizing s addr with
  | nil => rfl
  | cons b rest ih => exact ih ..

/-- An address in `CODE` stays in `CODE`. -/
theorem placeCode_inCode_mono (bs : List Byte) {s : State} {a : Word} (ha : s.inCode a = true) (addr : Word) :
    (s.placeCode addr bs).inCode a = true := by
  induction bs generalizing s addr with
  | nil => exact ha
  | cons b rest ih =>
    refine ih ?_ _
    exact Bool.or_eq_true_iff.mpr (.inr ha)

/-- Placing bytes writes at no other address. -/
theorem placeCode_byteAt_outside (bs : List Byte) {s : State} (hm : Memory.wf s.mem) {addr a : Word}
    (ha : ∀ k, k < bs.length → a ≠ addr + BitVec.ofNat 32 k) : (s.placeCode addr bs).byteAt a = s.byteAt a := by
  induction bs generalizing s addr with
  | nil => rfl
  | cons b rest ih =>
    have hne : a.toNat ≠ addr.toNat := fun e =>
      ha 0 (Nat.succ_pos _) ((BitVec.eq_of_toNat_eq e).trans (BitVec.add_zero addr).symm)
    refine (ih (write_wf hm (toNat_lt_addressCount addr) b) fun k hk e => ha (k + 1) (Nat.succ_lt_succ hk) ?_).trans ?_
    · rw [e, BitVec.add_assoc, Nat.add_comm k, BitVec.ofNat_add]
    · exact (read_write _ hm.1 addr.toNat b a.toNat).trans (if_neg hne)

/-- Placed bytes stand in `CODE`, where they do not run round the address space. -/
theorem holdsCode_placeCode {bs : List Byte} (hlen : bs.length ≤ addressCount) {s : State} (hm : Memory.wf s.mem)
    (addr : Word) : (s.placeCode addr bs).HoldsCode addr bs := by
  induction bs generalizing s addr with
  | nil => trivial
  | cons b rest ih =>
    have hm' := write_wf hm (toNat_lt_addressCount addr) b
    refine ⟨placeCode_inCode_mono rest ?_ _, ?_, ih (Nat.le_of_succ_le hlen) hm' _⟩
    · exact Bool.or_eq_true_iff.mpr (.inl (by simp [Region.has]))
    · refine (placeCode_byteAt_outside rest hm' fun k hk e => ?_).trans ?_
      · have hwrap : rest.length + 1 ≤ 4294967296 := hlen
        have he := congrArg BitVec.toNat e
        simp only [BitVec.toNat_add, BitVec.toNat_ofNat] at he
        have := addr.isLt
        omega
      · exact (read_write _ hm.1 addr.toNat b addr.toNat).trans (if_pos rfl)

/-- Standing in `CODE` depends on the memory and on `CODE` alone. -/
theorem holdsCode_congr {s t : State} (hm : t.mem = s.mem) (hc : t.code = s.code) {addr : Word} {bs : List Byte}
    (h : s.HoldsCode addr bs) : t.HoldsCode addr bs := by
  induction bs generalizing addr with
  | nil => trivial
  | cons b rest ih =>
    obtain ⟨hin, hb, hrest⟩ := h
    exact ⟨(inCode_congr hc addr).trans hin, (byteAt_congr hm addr).trans hb, ih hrest⟩

/-- A word of the opcode table is decoded from its three halfwords. -/
theorem decodeTableWord_eq_some {nbits w : Nat} {i : Instr} (h : decodeTableWord nbits w = some i) :
    ∃ rest, decode (tableHalves nbits w) = .ok i rest := by
  rw [decodeTableWord, decodeBytes, tableBytes, halvesOfBytes_bytesOfHalves] at h
  cases hd : decode (tableHalves nbits w) with
  | ok j rest => rw [hd] at h; exact ⟨rest, Option.some.inj h ▸ rfl⟩
  | reserved hw0 => rw [hd] at h; cases h
  | missing k => rw [hd] at h; cases h

/-- Settles O55: the three halfwords of the word are fetched, and the decoder reads the instruction from them. -/
theorem loadedWordIsTheNextInstruction : Obligations.LoadedWordIsTheNextInstruction := by
  intro s nbits w i hm hw
  have hlen : (tableBytes nbits w).length = 6 := rfl
  have hpc : (s.withFetchWord nbits w).pc = s.pc := placeCode_pc (tableBytes nbits w) s s.pc
  have hholds : (s.withFetchWord nbits w).HoldsCode s.pc (bytesOfHalves (tableHalves nbits w)) :=
    holdsCode_congr rfl rfl (holdsCode_placeCode (bs := tableBytes nbits w) (hlen ▸ by decide) hm s.pc)
  obtain ⟨b, hwindow⟩ := fetchWindow_of_holdsCode hholds 0
  have hthree : (s.withFetchWord nbits w).fetchWindow s.pc 3 = tableHalves nbits w := hwindow
  obtain ⟨rest, hd⟩ := decodeTableWord_eq_some hw
  exact step_of_fetchInstr rfl (fetchInstr_ok_iff.mpr ⟨rest, by rw [hpc, hthree, hd]⟩)

end Sys2Proof.Machine
end
